-- ==== Sys2Proof/Word.lean ====
section
/-! DEFINITION. The widths of the machine: bytes, the 9-bit program counter and register indices. -/

namespace Sys2Proof

/-- An 8-bit unsigned value (R10): a register, a memory cell, FL, an opcode or an operand byte. -/
abbrev Byte := BitVec 8

/-- The program counter's 9 bits, 0..511 (R26). -/
abbrev Pc := BitVec 9

/-- The index of a general register R0..R7 (R20), once an operand byte has been checked. -/
abbrev RegIx := Fin 8

/-- `zext_9` of a byte (R12): a jump target, a popped return address or the entry address as a pc. -/
def zext9 (b : Byte) : Pc := b.setWidth 9

end Sys2Proof
end

