-- ==== Sys2Proof/Config.lean ====
section
/-! DEFINITION. The open parameters of R9 that a step reads: the overflow policy and the opcode map.
Their default values stand in Decode.lean and Machine/Defaults.lean. The spec leaves no result of an instruction open, so
there is no free value here. -/

namespace Sys2Proof

/-- `OVERFLOW_POLICY` (R9, R171): what becomes of a result outside 0..255. -/
inductive OverflowPolicy where
  /-- the result modulo 256 -/
  | wrap8
  /-- a fatal Overflow -/
  | faultOverflow
  deriving DecidableEq, Repr

/-- `OPCODE_MAP` (R9, R76): the opcode byte of each instruction. What a map must satisfy (R77) is `OpcodeMap.valid`. -/
structure OpcodeMap where
  hlt : Byte
  ret : Byte
  push : Byte
  pop : Byte
  prn : Byte
  call : Byte
  jmp : Byte
  jeq : Byte
  jne : Byte
  inc : Byte
  dec : Byte
  not : Byte
  ldi : Byte
  add : Byte
  sub : Byte
  mul : Byte
  div : Byte
  mod : Byte
  cmp : Byte
  and : Byte
  or : Byte
  xor : Byte
  shl : Byte
  shr : Byte
  deriving DecidableEq, Repr

/-- The parameters a step reads. They are given to the machine when it is created and no step writes them. -/
structure Params where
  overflowPolicy : OverflowPolicy
  opcodeMap : OpcodeMap
  deriving DecidableEq, Repr

end Sys2Proof
end

