-- ==== Sys2Proof/Syntax.lean ====
section
/-! DEFINITION. The 24 instructions of the opcode table, in its order. An operand is the whole operand byte (R75): `a` is the
byte at pc+1 and `b` the byte at pc+2 (R14). A byte used as a register index is kept as it was fetched, because whether it is
0..7 is checked when the instruction runs (R108). -/

namespace Sys2Proof

/-- One instruction with the operand bytes it uses; unused bytes (R103) are no part of it. -/
inductive Instr where
  /-- HLT, R131 -/
  | hlt
  /-- RET, R152 -/
  | ret
  /-- PUSH reg, R140 -/
  | push (a : Byte)
  /-- POP reg, R141 -/
  | pop (a : Byte)
  /-- PRN reg, R133 -/
  | prn (a : Byte)
  /-- CALL reg, R151 -/
  | call (a : Byte)
  /-- JMP reg, R153 -/
  | jmp (a : Byte)
  /-- JEQ reg, R154 -/
  | jeq (a : Byte)
  /-- JNE reg, R155 -/
  | jne (a : Byte)
  /-- INC regA, R180 -/
  | inc (a : Byte)
  /-- DEC regA, R181 -/
  | dec (a : Byte)
  /-- NOT regA, R188 -/
  | not (a : Byte)
  /-- LDI reg, imm, R132 -/
  | ldi (a b : Byte)
  /-- ADD regA, regB, R175 -/
  | add (a b : Byte)
  /-- SUB regA, regB, R176 -/
  | sub (a b : Byte)
  /-- MUL regA, regB, R177 -/
  | mul (a b : Byte)
  /-- DIV regA, regB, R178 -/
  | div (a b : Byte)
  /-- MOD regA, regB, R179 -/
  | mod (a b : Byte)
  /-- CMP regA, regB, R182 -/
  | cmp (a b : Byte)
  /-- AND regA, regB, R183 -/
  | and (a b : Byte)
  /-- OR regA, regB, R184 -/
  | or (a b : Byte)
  /-- XOR regA, regB, R185 -/
  | xor (a b : Byte)
  /-- SHL regA, regB, R186 -/
  | shl (a b : Byte)
  /-- SHR regA, regB, R187 -/
  | shr (a b : Byte)
  deriving DecidableEq, Repr

/-- The operand bytes an instruction uses, in the order they follow the opcode (R103). -/
def Instr.operands : Instr → List Byte
  | .hlt | .ret => []
  | .push a | .pop a | .prn a | .call a | .jmp a | .jeq a | .jne a | .inc a | .dec a | .not a => [a]
  | .ldi a b | .add a b | .sub a b | .mul a b | .div a b | .mod a b | .cmp a b | .and a b | .or a b | .xor a b
  | .shl a b | .shr a b => [a, b]

/-- The operand bytes used as register indices, in the order they are checked (R103, R108). -/
def Instr.regOperands : Instr → List Byte
  | .hlt | .ret => []
  | .push a | .pop a | .prn a | .call a | .jmp a | .jeq a | .jne a | .inc a | .dec a | .not a => [a]
  | .ldi a _ => [a]
  | .add a b | .sub a b | .mul a b | .div a b | .mod a b | .cmp a b | .and a b | .or a b | .xor a b
  | .shl a b | .shr a b => [a, b]

/-- The ALU-class instructions: the ones whose opcode has bit 5 set (R77). -/
def Instr.aluClass : Instr → Bool
  | .hlt | .ret | .push _ | .pop _ | .prn _ | .call _ | .jmp _ | .jeq _ | .jne _ | .ldi _ _ => false
  | .inc _ | .dec _ | .not _ | .add _ _ | .sub _ _ | .mul _ _ | .div _ _ | .mod _ _ | .cmp _ _ | .and _ _ | .or _ _
  | .xor _ _ | .shl _ _ | .shr _ _ => true

/-- The instructions that set the pc themselves: the ones whose opcode has bit 4 set (R77). -/
def Instr.setsPc : Instr → Bool
  | .ret | .call _ | .jmp _ | .jeq _ | .jne _ => true
  | .hlt | .push _ | .pop _ | .prn _ | .ldi _ _ | .inc _ | .dec _ | .not _ | .add _ _ | .sub _ _ | .mul _ _ | .div _ _
  | .mod _ _ | .cmp _ _ | .and _ _ | .or _ _ | .xor _ _ | .shl _ _ | .shr _ _ => false

/-- The instructions whose operand count R77 leaves to the map (90_conflicts.md C1): INC, DEC and NOT. -/
def Instr.lengthOpen : Instr → Bool
  | .inc _ | .dec _ | .not _ => true
  | .hlt | .ret | .push _ | .pop _ | .prn _ | .call _ | .jmp _ | .jeq _ | .jne _ | .ldi _ _ | .add _ _ | .sub _ _
  | .mul _ _ | .div _ _ | .mod _ _ | .cmp _ _ | .and _ _ | .or _ _ | .xor _ _ | .shl _ _ | .shr _ _ => false

end Sys2Proof
end

