-- ==== Sys2Proof/Decode.lean ====
section
/-! DEFINITION. The instruction decoder (R72), the opcode dispatcher (R100, R101), the two together with the ALU engine's case
labels (R105) as a total decoder of the three fetched bytes, and the encoder. -/

namespace Sys2Proof

/-- The default `OPCODE_MAP` of R76: the conventional LS-8 bytes. UNVERIFIED (the spec's decision D2), log entry 2. -/
def defaultOpcodeMap : OpcodeMap where
  hlt := 0x01
  ret := 0x11
  push := 0x45
  pop := 0x46
  prn := 0x47
  call := 0x50
  jmp := 0x54
  jeq := 0x55
  jne := 0x56
  inc := 0x65
  dec := 0x66
  not := 0x69
  ldi := 0x82
  add := 0xA0
  sub := 0xA1
  mul := 0xA2
  div := 0xA3
  mod := 0xA4
  cmp := 0xA7
  and := 0xA8
  or := 0xAA
  xor := 0xAB
  shl := 0xAC
  shr := 0xAD

/-- `operand_count <- op[7:6]` (R72): 0..3, where 3 arises for unassigned bytes only (R73). -/
def operandCount (op : Byte) : Nat := (op >>> 6).toNat

/-- `is_alu <- op[5]` (R72). -/
def isAlu (op : Byte) : Bool := op.getLsbD 5

/-- `sets_pc <- op[4]` (R72). -/
def setsPc (op : Byte) : Bool := op.getLsbD 4

/-- The length in bytes of what starts with this opcode (R81). -/
def instrLength (op : Byte) : Nat := operandCount op + 1

/-- The handler identifiers of R100, with the verdict Unknown. -/
inductive Handler where
  | hlt | ldi | prn | push | pop | call | ret | jmp | jeq | jne | alu | unknown
  deriving DecidableEq, Repr

/-- The dispatch function of R101: every byte with bit 5 set goes to the ALU, assigned or not (decision D3). -/
def dispatch (m : OpcodeMap) (op : Byte) : Handler :=
  if isAlu op then .alu
  else if op = m.hlt then .hlt
  else if op = m.ldi then .ldi
  else if op = m.prn then .prn
  else if op = m.push then .push
  else if op = m.pop then .pop
  else if op = m.call then .call
  else if op = m.ret then .ret
  else if op = m.jmp then .jmp
  else if op = m.jeq then .jeq
  else if op = m.jne then .jne
  else .unknown

/-- What a step finds in the bytes it fetched: an instruction, or one of the two verdicts on an unassigned byte. -/
inductive Decoded where
  /-- an assigned opcode with the operand bytes it uses -/
  | instr (i : Instr)
  /-- the dispatcher has no handler for the byte: reported, not fatal (R104) -/
  | unknownOpcode (op : Byte)
  /-- an ALU-class byte that is none of the ALU's case labels: fatal (R105) -/
  | unsupportedAlu (op : Byte)
  deriving DecidableEq, Repr

/-- The case labels of the ALU engine (R105), which receives the opcode as its discriminant (R102). -/
def decodeAlu (m : OpcodeMap) (op a b : Byte) : Decoded :=
  if op = m.add then .instr (.add a b)
  else if op = m.sub then .instr (.sub a b)
  else if op = m.mul then .instr (.mul a b)
  else if op = m.div then .instr (.div a b)
  else if op = m.mod then .instr (.mod a b)
  else if op = m.inc then .instr (.inc a)
  else if op = m.dec then .instr (.dec a)
  else if op = m.cmp then .instr (.cmp a b)
  else if op = m.and then .instr (.and a b)
  else if op = m.or then .instr (.or a b)
  else if op = m.xor then .instr (.xor a b)
  else if op = m.shl then .instr (.shl a b)
  else if op = m.shr then .instr (.shr a b)
  else if op = m.not then .instr (.not a)
  else .unsupportedAlu op

/-- The decoder of the three bytes a step fetches (R56, R101 to R105), total on any bytes. -/
def decode (m : OpcodeMap) (op a b : Byte) : Decoded :=
  match dispatch m op with
  | .hlt => .instr .hlt
  | .ldi => .instr (.ldi a b)
  | .prn => .instr (.prn a)
  | .push => .instr (.push a)
  | .pop => .instr (.pop a)
  | .call => .instr (.call a)
  | .ret => .instr .ret
  | .jmp => .instr (.jmp a)
  | .jeq => .instr (.jeq a)
  | .jne => .instr (.jne a)
  | .alu => decodeAlu m op a b
  | .unknown => .unknownOpcode op

/-- The decoder on a byte sequence: its first three bytes, a missing one read as 0 (the value of a cell past the image, R243). -/
def decodeBytes (m : OpcodeMap) (bs : List Byte) : Decoded := decode m (bs.getD 0 0) (bs.getD 1 0) (bs.getD 2 0)

/-- The opcode byte of an instruction under a map (R76). -/
def opcode (m : OpcodeMap) : Instr → Byte
  | .hlt => m.hlt
  | .ret => m.ret
  | .push _ => m.push
  | .pop _ => m.pop
  | .prn _ => m.prn
  | .call _ => m.call
  | .jmp _ => m.jmp
  | .jeq _ => m.jeq
  | .jne _ => m.jne
  | .inc _ => m.inc
  | .dec _ => m.dec
  | .not _ => m.not
  | .ldi _ _ => m.ldi
  | .add _ _ => m.add
  | .sub _ _ => m.sub
  | .mul _ _ => m.mul
  | .div _ _ => m.div
  | .mod _ _ => m.mod
  | .cmp _ _ => m.cmp
  | .and _ _ => m.and
  | .or _ _ => m.or
  | .xor _ _ => m.xor
  | .shl _ _ => m.shl
  | .shr _ _ => m.shr

/-- The bytes of an instruction: the opcode, the operand bytes it uses, and 0 for each further byte that the opcode's
operand count gives it (INC, DEC, NOT under a map with count 2). DESIGN CHOICE for that filler, log entry 22. -/
def encode (m : OpcodeMap) (i : Instr) : List Byte :=
  opcode m i :: (i.operands ++ List.replicate (operandCount (opcode m i) - i.operands.length) 0)

/-- Byte `k` of an instruction whose first `nbits` bits are `w`, numbered as the opcode table numbers them: bit 0 is the least
significant bit of the first byte. Every bit from `nbits` on is 0. -/
def tableByte (nbits w k : Nat) : Byte := BitVec.ofNat 8 ((w % 2 ^ nbits) / 2 ^ (8 * k))

/-- The instruction the decoder reads, under the default map, from a table word; none where it reads no instruction. -/
def decodeTableWord (nbits w : Nat) : Option Instr :=
  match decode defaultOpcodeMap (tableByte nbits w 0) (tableByte nbits w 1) (tableByte nbits w 2) with
  | .instr i => some i
  | .unknownOpcode _ => none
  | .unsupportedAlu _ => none

end Sys2Proof
end

