-- ==== Sys2Proof/Machine/Defaults.lean ====
section
/-! DEFINITION. The default values of the open parameters (R9) and the reset values of the registers (R37). -/

namespace Sys2Proof.Machine

/-- `OVERFLOW_POLICY` by default (R9, decision D1), log entry 4. -/
def defaultOverflowPolicy : OverflowPolicy := .wrap8

/-- The parameters by default (R9). -/
def defaultParams : Params := { overflowPolicy := defaultOverflowPolicy, opcodeMap := defaultOpcodeMap }

/-- `ENTRY_PC` by default (R9, R242, decision D8), log entry 5. A memory index handed over by the host, so a byte. -/
def defaultEntryPc : Byte := 0

/-- The registers at creation: R0 to R6 zero, SP = 0xF4 (R37). -/
def resetRegs : Vector Byte 8 := #v[0, 0, 0, 0, 0, 0, 0, 0xF4]

/-- FL at creation (R37, decision D9), log entry 6. -/
def resetFl : Byte := 0

end Sys2Proof.Machine
end

