-- ==== Sys2Proof/Machine/State.lean ====
section
/-! DEFINITION. The machine state (R36), the reasons a step can stop, and the state after reset (R37). -/

namespace Sys2Proof.Machine

/-- Memory (R50): the cells that do not hold 0, as (address, byte) pairs in strictly rising order of address. A cell that is
not listed holds 0, its value at creation (R37). `Memory.wf` (Machine/Ops.lean) says that a list has this form. -/
abbrev Memory := List Host.Cell

/-- The fatal causes of R211, each with the info it records. -/
inductive Cause where
  /-- code 2: the ALU engine received a bit-5 byte it does not implement (R105) -/
  | unsupportedAluOperation (op : Byte)
  /-- code 3: DIV or MOD with a divisor value of 0 (R178, R179) -/
  | divisionByZero
  /-- code 4: the 3-byte fetch window leaves memory (R56) -/
  | outOfBoundsFetch
  /-- code 5: a register-index operand above 7 (R108) -/
  | outOfBoundsRegister (operand : Byte)
  /-- code 6: a data address outside 0..255 (R53, R54); no instruction reaches it (R211) -/
  | outOfBoundsData (addr : Nat)
  /-- code 7: a result outside 0..255 under FaultOverflow (R171), with the unbounded result -/
  | overflow (result : Int)
  deriving DecidableEq, Repr

/-- The run state (R31). Only `running` steps. -/
inductive Run where
  | running
  | halted
  /-- the cause with its info, and the address of the faulting instruction's opcode (R214) -/
  | faulted (cause : Cause) (pc : Pc)
  deriving DecidableEq, Repr

/-- One UnknownOpcode report (R35, R104). -/
structure Report where
  pc : Pc
  opcode : Byte
  deriving DecidableEq, Repr

/-- The complete state (R36), and the parameters the machine was created with (R9; log entry 1). -/
structure State where
  /-- memory, 256 cells -/
  mem : Memory
  /-- R0 to R7; R7 is SP -/
  x : Vector Byte 8
  /-- FL: bit 2 = L, bit 1 = G, bit 0 = E (R29) -/
  fl : Byte
  /-- the program counter, 0..511 (R26) -/
  pc : Pc
  /-- the run state -/
  run : Run
  /-- the bytes PRN has emitted, in order (R34) -/
  out : List Byte
  /-- the UnknownOpcode reports, in order (R35) -/
  diag : List Report
  /-- the open parameters; no step writes them -/
  params : Params
  deriving DecidableEq, Repr

/-- Why `step` has no next state. Both reasons are raised by `step` alone, in a state whose run has ended (R111): "no step is
enabled". A fatal condition of R211 is no Fault: the step that raises it has a next state, in which `run` is
`Run.faulted` (R214). Safe: the hardware does not go on either. -/
inductive Fault where
  /-- raised by `step` in a Halted state. Safe: R111, R225. -/
  | halted
  /-- raised by `step` in a Faulted state, with the recorded cause and pc. Safe: R111, R216. -/
  | faulted (cause : Cause) (pc : Pc)
  deriving DecidableEq, Repr

/-- Why an instruction has no meaning in the model. -/
inductive Refusal where
  /-- raised by an arm of `exec` whose instruction is not modelled. Safe. No arm raises it: every instruction of the opcode
  table has its meaning. -/
  | notModelled (mnemonic : String)
  deriving DecidableEq, Repr

/-- The machine created with given parameters and started at an entry address, with nothing loaded (R37, R241). -/
def State.create (p : Params) (entry : Byte) : State where
  mem := []
  x := resetRegs
  fl := resetFl
  pc := zext9 entry
  run := .running
  out := []
  diag := []
  params := p

/-- The machine right after reset (R37), with every open parameter at its default (R9) and no image loaded. -/
def State.reset : State := State.create defaultParams defaultEntryPc

end Sys2Proof.Machine
end

