-- ==== Sys2Proof/Machine/Flags.lean ====
section
/-! DEFINITION. The flags register FL: what CMP writes and what JEQ and JNE read (R29, R30, R182). -/

namespace Sys2Proof.Machine

/-- `0b00000 : L : G : E` (R182). -/
def flagByte (l g e : Bool) : Byte :=
  BitVec.ofNat 8 (4 * l.toNat + 2 * g.toNat + e.toNat)

/-- What CMP writes to FL for register values `A` and `B`, compared as unsigned bytes (R172, R182). -/
def cmpFlags (A B : Byte) : Byte :=
  flagByte (decide (A.toNat < B.toNat)) (decide (B.toNat < A.toNat)) (decide (A = B))

/-- E, bit 0 of FL: the one flag an instruction reads (R30). -/
def State.equalFlag (s : State) : Bool := s.fl.getLsbD 0

end Sys2Proof.Machine
end

