-- ==== Sys2Proof/Machine/Ops.lean ====
section
/-! DEFINITION. The named operations over memory, registers, the pc and the logs; fitting a result to a byte; taking a fatal
condition; and the end of a step. -/

namespace Sys2Proof.Machine

/-! ## Memory (memory_unit) -/

/-- The addresses of a list are strictly rising from `lo` on and below 256, and no listed byte is 0. -/
def Memory.wfFrom : Nat → Memory → Bool
  | _, [] => true
  | lo, (k, v) :: m => decide (lo ≤ k) && decide (k < 256) && decide (v ≠ 0) && Memory.wfFrom (k + 1) m

/-- The canonical form of memory: addresses 0..255 strictly rising, no entry equal to what an unlisted address reads as. -/
def Memory.wf (m : Memory) : Bool := Memory.wfFrom 0 m

/-- `mem[k]`: the listed byte, or 0, which every cell holds at creation (R37, R55). -/
def Memory.read : Memory → Nat → Byte
  | [], _ => 0
  | (j, v) :: m, k => if j = k then v else Memory.read m k

/-- `mem[k] <- v`, keeping the canonical form: a write of 0 removes the entry. -/
def Memory.write : Memory → Nat → Byte → Memory
  | [], k, v => if v = 0 then [] else [(k, v)]
  | (j, w) :: m, k, v =>
    if k < j then (if v = 0 then (j, w) :: m else (k, v) :: (j, w) :: m)
    else if k = j then (if v = 0 then m else (k, v) :: m)
    else (j, w) :: Memory.write m k v

/-- The bytes `bs` placed at sequential addresses from `k` (R243). -/
def Memory.place : Memory → Nat → List Byte → Memory
  | m, _, [] => m
  | m, k, b :: bs => Memory.place (m.write k b) (k + 1) bs

/-- `MemRead(addr, 1)` (R53): the cell, or OutOfBounds(data, addr) outside 0..255. -/
def State.memRead (s : State) (addr : Nat) : Except Cause Byte :=
  if addr ≤ 255 then .ok (s.mem.read addr) else .error (.outOfBoundsData addr)

/-- `MemWrite(addr, 1, v)` (R54): the cell written, or OutOfBounds(data, addr) outside 0..255. -/
def State.memWrite (s : State) (addr : Nat) (v : Byte) : Except Cause State :=
  if addr ≤ 255 then .ok { s with mem := s.mem.write addr v } else .error (.outOfBoundsData addr)

/-! ## Registers (register_file) and the pc (program_counter) -/

/-- `SP_INDEX` (R9): SP is an alias of `x[7]` (R11, R21). -/
def spIx : RegIx := 7

/-- `x[i]` (R24). -/
def State.reg (s : State) (i : RegIx) : Byte := s.x.get i

/-- `x[i] <- v` (R24). No register is hardwired or read-only (R22). -/
def State.setReg (s : State) (i : RegIx) (v : Byte) : State := { s with x := s.x.set i v }

/-- `pc <- target`, for a byte target: a register value or a popped return address (R26). -/
def State.setPc (s : State) (target : Byte) : State := { s with pc := zext9 target }

/-- `FL <- v` (R29). -/
def State.setFl (s : State) (v : Byte) : State := { s with fl := v }

/-- The default advance (R27, R110): `if sets_pc = 0 then pc <- zext_9(pc + operand_count + 1)`. -/
def State.advance (op : Byte) (s : State) : State :=
  if setsPc op then s else { s with pc := s.pc + BitVec.ofNat 9 (instrLength op) }

/-! ## The logs and the run state -/

/-- `Emit(v)` (R12, R133). -/
def State.emit (s : State) (v : Byte) : State := { s with out := s.out ++ [v] }

/-- `Report(UnknownOpcode, pc, opcode)` (R12, R104). -/
def State.report (op : Byte) (s : State) : State := { s with diag := s.diag ++ [⟨s.pc, op⟩] }

/-- `Halt()` (R12, R131). -/
def State.halt (s : State) : State := { s with run := .halted }

/-- Taking a fatal condition (R214): `run <- Faulted(code, pc, info)` with the pc of the faulting instruction's opcode, and
nothing else changes. There is no return from it (R216). -/
def State.raise (c : Cause) (s : State) : State := { s with run := .faulted c s.pc }

/-! ## Results fitted to a byte -/

/-- `Fit8(r)` (R12, R171): `r mod 256` under Wrap8; under FaultOverflow r itself, or Overflow(r) outside 0..255. -/
def fit8 (p : OverflowPolicy) (r : Int) : Except Cause Byte :=
  match p with
  | .wrap8 => .ok (BitVec.ofInt 8 r)
  | .faultOverflow => if 0 ≤ r ∧ r ≤ 255 then .ok (BitVec.ofInt 8 r) else .error (.overflow r)

/-- `Fit8` under the machine's own policy. -/
def State.fit8 (s : State) (r : Int) : Except Cause Byte := Machine.fit8 s.params.overflowPolicy r

/-! ## SP and the stack (R139) -/

/-- `x[7] <- Fit8(x[7] - 1)` (R140, R151). -/
def State.decSp (s : State) : Except Cause State :=
  match s.fit8 ((s.reg spIx).toNat - 1) with
  | .error c => .error c
  | .ok v => .ok (s.setReg spIx v)

/-- `x[7] <- Fit8(x[7] + 1)` (R141, R152). -/
def State.incSp (s : State) : Except Cause State :=
  match s.fit8 ((s.reg spIx).toNat + 1) with
  | .error c => .error c
  | .ok v => .ok (s.setReg spIx v)

/-- The push of PUSH and CALL: SP is decremented, then `value`, computed in the state with the new SP, is written at SP
(R140, R151; statement order, decision D11). -/
def State.pushByte (s : State) (value : State → Byte) : Except Cause State :=
  match s.decSp with
  | .error c => .error c
  | .ok t => t.memWrite (t.reg spIx).toNat (value t)

/-- The pop of POP and RET: the byte at SP is read and given to `deliver`, then SP is incremented in the state that results
(R141, R152; statement order, decision D11). -/
def State.popByte (s : State) (deliver : Byte → State → State) : Except Cause State :=
  match s.memRead (s.reg spIx).toNat with
  | .error c => .error c
  | .ok v => (deliver v s).incSp

/-- The address of the byte after a 2-byte instruction, `pc + 2`, as the byte CALL pushes (R151). A fetched CALL has
pc + 2 <= 255; log entry 16 for the truncation elsewhere. -/
def State.returnAddress (s : State) : Byte := (s.pc + 2).setWidth 8

/-! ## The end of a step -/

/-- What follows a handler (R106, step 4 and 5): its fatal condition is taken in the state the handler started from, so it
writes nothing (R109); a run that has ended stops; otherwise the default advance for the opcode byte `op`. -/
def State.conclude (s : State) (op : Byte) (r : Except Cause State) : Host.Outcome State Fault Refusal :=
  match r with
  | .error c => .next (s.raise c)
  | .ok t => if t.run = .running then .next (t.advance op) else .next t

/-! ## Fetch (R56) -/

/-- The fetch latches IR, a and b of one step (R33). -/
structure Window where
  ir : Byte
  a : Byte
  b : Byte
  deriving DecidableEq, Repr

/-- The three bytes at pc, always read; OutOfBounds(fetch) when pc + 2 > 255 (R56, R106). -/
def State.fetch (s : State) : Except Cause Window :=
  if s.pc.toNat + 2 > 255 then .error .outOfBoundsFetch
  else .ok ⟨s.mem.read s.pc.toNat, s.mem.read (s.pc.toNat + 1), s.mem.read (s.pc.toNat + 2)⟩

/-- What the bytes at pc say under the machine's opcode map. -/
def State.decodeWindow (s : State) (w : Window) : Decoded := decode s.params.opcodeMap w.ir w.a w.b

/-! ## Error codes (R211) -/

/-- The code of UnknownOpcode, the one non-fatal cause; its reports are `Report`s. -/
def unknownOpcodeCode : Nat := 1

/-- The numeric code of a fatal cause. -/
def Cause.code : Cause → Nat
  | .unsupportedAluOperation _ => 2
  | .divisionByZero => 3
  | .outOfBoundsFetch => 4
  | .outOfBoundsRegister _ => 5
  | .outOfBoundsData _ => 6
  | .overflow _ => 7

end Sys2Proof.Machine
end

