-- ==== Sys2Proof/Machine/Operands.lean ====
section
/-! DEFINITION. The operand forms (R75): a register index, checked before the handler runs, `a` before `b` (R108). An
immediate is the operand byte itself, used unchanged; an unused byte is never examined (R103). -/

namespace Sys2Proof.Machine

/-- An operand byte as a register index: R0..R7, or OutOfBounds(register, r) above 7 (R108). -/
def regIndex (r : Byte) : Except Cause RegIx :=
  if h : r.toNat < 8 then .ok ⟨r.toNat, h⟩ else .error (.outOfBoundsRegister r)

/-- A handler of one register operand. -/
def withReg (a : Byte) (k : RegIx → Except Cause State) : Except Cause State :=
  match regIndex a with
  | .error c => .error c
  | .ok i => k i

/-- A handler of two register operands, `a` checked first. -/
def withRegs (a b : Byte) (k : RegIx → RegIx → Except Cause State) : Except Cause State :=
  withReg a fun i => withReg b fun j => k i j

/-- The ALU's two-register form (R170): `A = x[a]` and `B = x[b]` are read, and the result goes to `x[a]`. -/
def alu2 (s : State) (a b : Byte) (f : Byte → Byte → Except Cause Byte) : Except Cause State :=
  withRegs a b fun i j =>
    match f (s.reg i) (s.reg j) with
    | .error c => .error c
    | .ok v => .ok (s.setReg i v)

/-- The ALU's one-register form (R170): `A = x[a]` is read, and the result goes to `x[a]`. -/
def alu1 (s : State) (a : Byte) (f : Byte → Except Cause Byte) : Except Cause State :=
  withReg a fun i =>
    match f (s.reg i) with
    | .error c => .error c
    | .ok v => .ok (s.setReg i v)

end Sys2Proof.Machine
end

