-- ==== Sys2Proof/Machine/Alu.lean ====
section
/-! DEFINITION. The ALU engine: INC, DEC, NOT, ADD, SUB, MUL, DIV, MOD, CMP, AND, OR, XOR, SHL, SHR (44_alu.md). Register
values are unsigned; arithmetic is on unbounded integers until `Fit8` makes a byte of the result (R171, R172). -/

namespace Sys2Proof.Machine

/-- INC (R180): `x[a] <- Fit8(A + 1)`. -/
def execInc (a : Byte) (s : State) : Host.Outcome State Fault Refusal :=
  s.conclude s.params.opcodeMap.inc (alu1 s a fun A => s.fit8 (A.toNat + 1))

/-- DEC (R181): `x[a] <- Fit8(A - 1)`. -/
def execDec (a : Byte) (s : State) : Host.Outcome State Fault Refusal :=
  s.conclude s.params.opcodeMap.dec (alu1 s a fun A => s.fit8 (A.toNat - 1))

/-- NOT (R188): the complement without a width is `-A-1`, which Wrap8 makes `255 - A` and FaultOverflow always faults on. -/
def execNot (a : Byte) (s : State) : Host.Outcome State Fault Refusal :=
  s.conclude s.params.opcodeMap.not (alu1 s a fun A => s.fit8 (-A.toNat - 1))

/-- ADD (R175): `x[a] <- Fit8(A + B)`. -/
def execAdd (a b : Byte) (s : State) : Host.Outcome State Fault Refusal :=
  s.conclude s.params.opcodeMap.add (alu2 s a b fun A B => s.fit8 (A.toNat + B.toNat))

/-- SUB (R176): `x[a] <- Fit8(A - B)`. -/
def execSub (a b : Byte) (s : State) : Host.Outcome State Fault Refusal :=
  s.conclude s.params.opcodeMap.sub (alu2 s a b fun A B => s.fit8 (A.toNat - B.toNat))

/-- MUL (R177): `x[a] <- Fit8(A * B)`. -/
def execMul (a b : Byte) (s : State) : Host.Outcome State Fault Refusal :=
  s.conclude s.params.opcodeMap.mul (alu2 s a b fun A B => s.fit8 (A.toNat * B.toNat))

/-- DIV (R178): `x[a] <- floor(A / B)`, DivisionByZero when B = 0. -/
def execDiv (a b : Byte) (s : State) : Host.Outcome State Fault Refusal :=
  s.conclude s.params.opcodeMap.div (alu2 s a b fun A B =>
    if B = 0 then .error .divisionByZero else .ok (BitVec.ofNat 8 (A.toNat / B.toNat)))

/-- MOD (R179): `x[a] <- A mod B`, DivisionByZero when B = 0. -/
def execMod (a b : Byte) (s : State) : Host.Outcome State Fault Refusal :=
  s.conclude s.params.opcodeMap.mod (alu2 s a b fun A B =>
    if B = 0 then .error .divisionByZero else .ok (BitVec.ofNat 8 (A.toNat % B.toNat)))

/-- CMP (R182): `FL <- 0b00000 : L : G : E`, both registers only read. -/
def execCmp (a b : Byte) (s : State) : Host.Outcome State Fault Refusal :=
  s.conclude s.params.opcodeMap.cmp (withRegs a b fun i j => .ok (s.setFl (cmpFlags (s.reg i) (s.reg j))))

/-- AND (R183). -/
def execAnd (a b : Byte) (s : State) : Host.Outcome State Fault Refusal :=
  s.conclude s.params.opcodeMap.and (alu2 s a b fun A B => .ok (A &&& B))

/-- OR (R184). -/
def execOr (a b : Byte) (s : State) : Host.Outcome State Fault Refusal :=
  s.conclude s.params.opcodeMap.or (alu2 s a b fun A B => .ok (A ||| B))

/-- XOR (R185). -/
def execXor (a b : Byte) (s : State) : Host.Outcome State Fault Refusal :=
  s.conclude s.params.opcodeMap.xor (alu2 s a b fun A B => .ok (A ^^^ B))

/-- SHL (R186): `x[a] <- Fit8(A * 2^B)`, the whole of B the count (decision D13). -/
def execShl (a b : Byte) (s : State) : Host.Outcome State Fault Refusal :=
  s.conclude s.params.opcodeMap.shl (alu2 s a b fun A B => s.fit8 ((A.toNat * 2 ^ B.toNat : Nat) : Int))

/-- SHR (R187): `x[a] <- floor(A / 2^B)`, the whole of B the count (decision D13). -/
def execShr (a b : Byte) (s : State) : Host.Outcome State Fault Refusal :=
  s.conclude s.params.opcodeMap.shr (alu2 s a b fun A B => .ok (BitVec.ofNat 8 (A.toNat / 2 ^ B.toNat)))

end Sys2Proof.Machine
end

