-- ==== Sys2Proof/Machine/Branch.lean ====
section
/-! DEFINITION. The subroutine and branch family: CALL, RET, JMP, JEQ, JNE (43_subroutine_branch.md). Each writes the pc on
every path, and its opcode's bit 4 keeps the loop from advancing it. -/

namespace Sys2Proof.Machine

/-- CALL (R151): the return address pc + 2 is pushed, then `pc <- x[a]`, read after the SP write. -/
def execCall (a : Byte) (s : State) : Host.Outcome State Fault Refusal :=
  s.conclude s.params.opcodeMap.call (withReg a fun i =>
    match s.pushByte fun _ => s.returnAddress with
    | .error c => .error c
    | .ok t => .ok (t.setPc (t.reg i)))

/-- RET (R152): the pc takes the byte at SP, then SP is incremented. -/
def execRet (s : State) : Host.Outcome State Fault Refusal :=
  s.conclude s.params.opcodeMap.ret (s.popByte fun v t => t.setPc v)

/-- JMP (R153): `pc <- x[a]`. -/
def execJmp (a : Byte) (s : State) : Host.Outcome State Fault Refusal :=
  s.conclude s.params.opcodeMap.jmp (withReg a fun i => .ok (s.setPc (s.reg i)))

/-- The fall-through of JEQ and JNE: `pc <- pc + 2` (R154, R155). -/
def State.fallThrough (s : State) : State := { s with pc := s.pc + 2 }

/-- JEQ (R154): `if FL[0] = 1 then pc <- x[a] else pc <- pc + 2`. -/
def execJeq (a : Byte) (s : State) : Host.Outcome State Fault Refusal :=
  s.conclude s.params.opcodeMap.jeq (withReg a fun i =>
    .ok (if s.equalFlag then s.setPc (s.reg i) else s.fallThrough))

/-- JNE (R155): `if FL[0] = 0 then pc <- x[a] else pc <- pc + 2`. -/
def execJne (a : Byte) (s : State) : Host.Outcome State Fault Refusal :=
  s.conclude s.params.opcodeMap.jne (withReg a fun i =>
    .ok (if s.equalFlag then s.fallThrough else s.setPc (s.reg i)))

end Sys2Proof.Machine
end

