-- ==== Sys2Proof/Machine/DataMovement.lean ====
section
/-! DEFINITION. The data-movement family: HLT, LDI, PRN (41_data_movement.md). -/

namespace Sys2Proof.Machine

/-- HLT (R131): `Halt()`; the pc is not advanced. -/
def execHlt (s : State) : Host.Outcome State Fault Refusal :=
  s.conclude s.params.opcodeMap.hlt (.ok s.halt)

/-- LDI (R132): `x[a] <- b`. -/
def execLdi (a b : Byte) (s : State) : Host.Outcome State Fault Refusal :=
  s.conclude s.params.opcodeMap.ldi (withReg a fun i => .ok (s.setReg i b))

/-- PRN (R133): `Emit(x[a])`. -/
def execPrn (a : Byte) (s : State) : Host.Outcome State Fault Refusal :=
  s.conclude s.params.opcodeMap.prn (withReg a fun i => .ok (s.emit (s.reg i)))

end Sys2Proof.Machine
end

