-- ==== Sys2Proof/Machine/Stack.lean ====
section
/-! DEFINITION. The stack family: PUSH and POP (42_stack.md). -/

namespace Sys2Proof.Machine

/-- PUSH (R140): SP is decremented, then `x[a]`, read after that, is written at SP. -/
def execPush (a : Byte) (s : State) : Host.Outcome State Fault Refusal :=
  s.conclude s.params.opcodeMap.push (withReg a fun i => s.pushByte fun t => t.reg i)

/-- POP (R141): `x[a]` takes the byte at SP, then SP, read after that, is incremented. -/
def execPop (a : Byte) (s : State) : Host.Outcome State Fault Refusal :=
  s.conclude s.params.opcodeMap.pop (withReg a fun i => s.popByte fun v t => t.setReg i v)

end Sys2Proof.Machine
end

