-- ==== Sys2Proof/WellFormed.lean ====
section
/-! DEFINITION. The checks on syntax and on an opcode map: register operands name R0..R7 (R75), and a map meets the
constraints the source puts on the opcode bytes (R77). -/

namespace Sys2Proof

/-- An instruction is well formed when every operand byte it uses as a register index is 0..7 (R75). An ill-formed one still
runs in the machine: it raises OutOfBounds(register) (R108). -/
def Instr.wf (i : Instr) : Bool := i.regOperands.all fun r => decide (r.toNat ≤ 7)

/-- The bytes of a map, in the order of the opcode table. -/
def OpcodeMap.bytes (m : OpcodeMap) : List Byte :=
  [m.hlt, m.ret, m.push, m.pop, m.prn, m.call, m.jmp, m.jeq, m.jne, m.inc, m.dec, m.not] ++
  [m.ldi, m.add, m.sub, m.mul, m.div, m.mod, m.cmp, m.and, m.or, m.xor, m.shl, m.shr]

/-- Bits 7:4 of an opcode byte: operand count, ALU class, sets pc (R71), as one number. -/
def classBits (op : Byte) : Nat := op.toNat / 16

/-- The constraints of R77 on bits 7:4: count 0 for HLT and RET, 1 for the one-register instructions, 2 for LDI and the
two-register ALU operations; bit 5 for the ALU class; bit 4 for CALL, RET, JMP, JEQ, JNE. INC, DEC and NOT may have count 1
(the conventional bytes) or 2 ("advance by 3", C1). -/
def OpcodeMap.bitsOk (m : OpcodeMap) : Bool :=
  (classBits m.hlt == 0b0000) && (classBits m.ret == 0b0001) &&
  (classBits m.push == 0b0100) && (classBits m.pop == 0b0100) && (classBits m.prn == 0b0100) &&
  (classBits m.call == 0b0101) && (classBits m.jmp == 0b0101) && (classBits m.jeq == 0b0101) &&
  (classBits m.jne == 0b0101) &&
  (classBits m.inc == 0b0110 || classBits m.inc == 0b1010) &&
  (classBits m.dec == 0b0110 || classBits m.dec == 0b1010) &&
  (classBits m.not == 0b0110 || classBits m.not == 0b1010) &&
  (classBits m.ldi == 0b1000) &&
  (classBits m.add == 0b1010) && (classBits m.sub == 0b1010) && (classBits m.mul == 0b1010) &&
  (classBits m.div == 0b1010) && (classBits m.mod == 0b1010) && (classBits m.cmp == 0b1010) &&
  (classBits m.and == 0b1010) && (classBits m.or == 0b1010) && (classBits m.xor == 0b1010) &&
  (classBits m.shl == 0b1010) && (classBits m.shr == 0b1010)

/-- A map the machine may be given: R77's bits, and no byte names two instructions (dispatch is a mapping, R100).
DEDUCED, log entry 23. -/
def OpcodeMap.valid (m : OpcodeMap) : Bool := m.bitsOk && decide m.bytes.Nodup

end Sys2Proof
end

