-- ==== Sys2Proof/Machine/Loop.lean ====
section
/-! DEFINITION. The body of the execution loop (R106), and the loading of a program (R241 to R243). -/

namespace Sys2Proof.Machine

/-- An unassigned byte the dispatcher does not map (R104): reported, then the normal advance; no operand is checked. -/
def State.skipUnknown (op : Byte) (s : State) : State := (s.report op).advance op

/-- Steps 3 to 5 of R106 for what the fetched bytes decode to. -/
def execDecoded (d : Decoded) (s : State) : Host.Outcome State Fault Refusal :=
  match d with
  | .instr i => exec i s
  | .unknownOpcode op => .next (s.skipUnknown op)
  | .unsupportedAlu op => .next (s.raise (.unsupportedAluOperation op))

/-- One step of a Running state (R106): fetch, decode, dispatch, invoke, advance. -/
def stepRunning (s : State) : Host.Outcome State Fault Refusal :=
  match s.fetch with
  | .error c => .next (s.raise c)
  | .ok w => execDecoded (s.decodeWindow w) s

/-- Why the host gets no run. -/
inductive LaunchError where
  /-- the image has more than 256 bytes (R243, decision D24) -/
  | imageTooLong
  /-- the opcode map breaks R77's constraints, or gives two instructions one byte -/
  | badOpcodeMap
  deriving DecidableEq, Repr

/-- The loader (R243): byte i of the image goes to `mem[i]`. -/
def State.load (image : List Byte) (s : State) : State := { s with mem := s.mem.place 0 image }

/-- The host's launch (R226, R241): creation, loading, start at the entry address. -/
def State.launch (p : Params) (image : List Byte) (entry : Byte) : Except LaunchError State :=
  if 256 < image.length then .error .imageTooLong
  else if p.opcodeMap.valid then .ok ((State.create p entry).load image)
  else .error .badOpcodeMap

/-- `bs` placed from the pc on, as far as there are cells (log entry 24). -/
def State.placeAtPc (s : State) (bs : List Byte) : State :=
  { s with mem := s.mem.place s.pc.toNat (bs.take (256 - s.pc.toNat)) }

end Sys2Proof.Machine
end

