-- ==== Sys2Proof/Machine/Step.lean ====
section
/-! DEFINITION. One step of the machine, and a word placed where it fetches. -/

namespace Sys2Proof.Machine

/-- One step. Only a Running state steps (R31, R106); Halted and Faulted are terminal (R111). -/
def step (s : State) : Host.Outcome State Fault Refusal :=
  match s.run with
  | .running => stepRunning s
  | .halted => .fault .halted
  | .faulted c pc => .fault (.faulted c pc)

/-- `s` with an instruction whose first `nbits` bits are `w` (numbered as the opcode table numbers them, the rest 0) stored in
the three bytes that the next step fetches. -/
def State.withFetchWord (s : State) (nbits w : Nat) : State :=
  s.placeAtPc [tableByte nbits w 0, tableByte nbits w 1, tableByte nbits w 2]

end Sys2Proof.Machine
end

