-- ==== Sys2Proof/Machine/Observe.lean ====
section
/-! DEFINITION. What a run shows the host (R114): PRN's lines, the reports, and the optional trace (R224). -/

namespace Sys2Proof.Machine

/-- The line the output collaborator shows for one emitted byte: its decimal digits and a line end (R133,
decision D17). The line end is the one character "\n": DESIGN CHOICE, log entry 28. -/
def outLine (v : Byte) : String := Nat.repr v.toNat ++ "\n"

/-- The text of a run's output log. -/
def State.outText (s : State) : String := String.join (s.out.map outLine)

/-- What the optional trace collaborator renders (R224): the pc, the next three memory bytes (none where there is no cell) and
all eight registers. -/
structure Trace where
  pc : Pc
  bytes : List (Option Byte)
  regs : Vector Byte 8
  deriving DecidableEq, Repr

/-- The trace of a state; it writes nothing (R224, decision D22). The three bytes start at the pc (DESIGN CHOICE, log entry 29),
and one past address 255 is shown as none (DESIGN CHOICE, log entry 26). -/
def State.trace (s : State) : Trace where
  pc := s.pc
  bytes := [0, 1, 2].map fun k => if s.pc.toNat + k ≤ 255 then some (s.mem.read (s.pc.toNat + k)) else none
  regs := s.x

end Sys2Proof.Machine
end

