-- ==== Sys2Proof/Safety.lean ====
section
/-! DEFINITION. What the claims call a good state and an ended run. -/

namespace Sys2Proof.Machine

/-- What holds of every state of a run: memory keeps its canonical form, the opcode map is one R77 allows, the pc is at most
257 (R26), and FL holds a value CMP writes or its reset value (R29, R182). -/
structure State.Inv (s : State) : Prop where
  memory : s.mem.wf = true
  opcodes : s.params.opcodeMap.valid = true
  pcBound : s.pc.toNat ≤ 257
  flags : s.fl = 0b000 ∨ s.fl = 0b001 ∨ s.fl = 0b010 ∨ s.fl = 0b100

/-- The run has ended in a fatal condition (R113, R214). -/
def State.isFaulted (s : State) : Bool :=
  match s.run with
  | .running => false
  | .halted => false
  | .faulted _ _ => true

/-- The run has ended (R113). -/
def State.ended (s : State) : Bool := decide (s.run ≠ .running)

/-- The same state under another overflow policy (R9). -/
def State.withPolicy (s : State) (p : OverflowPolicy) : State :=
  { s with params := { s.params with overflowPolicy := p } }

end Sys2Proof.Machine
end

