-- ==== Sys2Proof/Certificates/Slice0/Obligations.lean ====
section
/-! DEFINITION. The statements for the provers, from the numbered rules of spec/. -/

open Sys2Proof Sys2Proof.Machine

/-- From every state HLT has the next state in which the run is Halted and everything else, the pc included, is as before;
its byte 0x01 decodes to it whatever follows; at 0xFE or 0xFF the fetch faults instead; no other instruction reaches
Halted. (That the pc keeps the HLT's address is the spec's inference from R106 and R110, and the fetch fault its
decision D5, log entry 11.) (R131.) -/
def Obligations.HltHalts : Prop :=
  (∀ s : State, exec .hlt s = .next { s with run := .halted }) ∧
  (∀ a b : Byte, decode defaultOpcodeMap 0x01 a b = .instr .hlt) ∧
  (∀ s : State, s.run = .running → s.pc = 0xFE ∨ s.pc = 0xFF →
    step s = .next { s with run := .faulted .outOfBoundsFetch s.pc }) ∧
  (∀ (i : Instr) (s t : State), s.run = .running → exec i s = .next t → t.run = .halted → i = .hlt)

/-- From a Running state under a valid opcode map, LDI of register i and byte b writes b to that register and advances the
pc by 3 and changes nothing else; a register byte above 7 takes OutOfBounds(register), whatever the immediate; 82 a b
decodes to it. (R132.) -/
def Obligations.LdiLoadsImmediate : Prop :=
  (∀ s : State, s.run = .running → s.params.opcodeMap.valid = true →
    (∀ (i : RegIx) (b : Byte), exec (.ldi (BitVec.ofNat 8 i) b) s = .next { s with x := s.x.set i b, pc := s.pc + 3 }) ∧
    (∀ a b : Byte, 7 < a.toNat →
      exec (.ldi a b) s = .next { s with run := .faulted (.outOfBoundsRegister a) s.pc })) ∧
  (∀ a b : Byte, decode defaultOpcodeMap 0x82 a b = .instr (.ldi a b))

/-- From a Running state under a valid opcode map, PRN of register i appends its byte to the output log and advances the
pc by 2; a register byte above 7 takes OutOfBounds(register); 47 a decodes to it; an emitted byte is rendered as its
decimal digits and a line end; only PRN changes the output log. (The form of the line is the spec's decision D17, log
entry 18; that its line end is a line feed is the model's choice, log entry 28.) (R133.) -/
def Obligations.PrnEmitsRegister : Prop :=
  (∀ s : State, s.run = .running → s.params.opcodeMap.valid = true →
    (∀ i : RegIx, exec (.prn (BitVec.ofNat 8 i)) s = .next { s with out := s.out ++ [s.reg i], pc := s.pc + 2 }) ∧
    (∀ a : Byte, 7 < a.toNat →
      exec (.prn a) s = .next { s with run := .faulted (.outOfBoundsRegister a) s.pc })) ∧
  (∀ a b : Byte, decode defaultOpcodeMap 0x47 a b = .instr (.prn a)) ∧
  (∀ v : Byte, outLine v = String.ofList (Nat.toDigits 10 v.toNat) ++ "\n") ∧
  (∀ (i : Instr) (s t : State), exec i s = .next t → t.out ≠ s.out → ∃ a, i = .prn a)

/-- From a Running state under a valid opcode map, PUSH of register i decrements SP (wrapping 0 to 255 under Wrap8) and
writes to the cell at the new SP the register as it stands after that (the decremented SP for R7), and advances the pc
by 2; under FaultOverflow with SP = 0 it takes Overflow(-1); a register byte above 7 takes OutOfBounds(register); 45 a
decodes to it. (What PUSH R7 stores is the spec's inference from the statement order, decision D11, log entry 12.)
(R140.) -/
def Obligations.PushStoresRegister : Prop :=
  (∀ s : State, s.run = .running → s.params.opcodeMap.valid = true →
    (∀ i : RegIx, s.params.overflowPolicy = .wrap8 ∨ s.reg 7 ≠ 0 →
      exec (.push (BitVec.ofNat 8 i)) s =
        .next { s with
          x := s.x.set 7 (s.reg 7 - 1)
          mem := s.mem.write (s.reg 7 - 1).toNat (if i = 7 then s.reg 7 - 1 else s.reg i)
          pc := s.pc + 2 }) ∧
    (∀ i : RegIx, s.params.overflowPolicy = .faultOverflow → s.reg 7 = 0 →
      exec (.push (BitVec.ofNat 8 i)) s = .next { s with run := .faulted (.overflow (-1)) s.pc }) ∧
    (∀ a : Byte, 7 < a.toNat →
      exec (.push a) s = .next { s with run := .faulted (.outOfBoundsRegister a) s.pc })) ∧
  (∀ a b : Byte, decode defaultOpcodeMap 0x45 a b = .instr (.push a))

/-- From a Running state under a valid opcode map, POP of register i loads it from the cell at SP and then increments SP
as it stands after that load (for R7 the loaded value plus 1), wrapping under Wrap8, and advances the pc by 2; under
FaultOverflow an incremented value of 256 takes Overflow(256) and writes nothing; a register byte above 7 takes
OutOfBounds(register); 46 a decodes to it. (What POP R7 leaves is the spec's inference from the statement order,
decision D11, log entry 12.) (R141.) -/
def Obligations.PopLoadsRegister : Prop :=
  (∀ s : State, s.run = .running → s.params.opcodeMap.valid = true →
    (∀ (i : RegIx) (v sp : Byte), v = s.mem.read (s.reg 7).toNat → sp = (if i = 7 then v else s.reg 7) →
      (s.params.overflowPolicy = .wrap8 ∨ sp ≠ 255 →
        exec (.pop (BitVec.ofNat 8 i)) s = .next { s with x := (s.x.set i v).set 7 (sp + 1), pc := s.pc + 2 }) ∧
      (s.params.overflowPolicy = .faultOverflow → sp = 255 →
        exec (.pop (BitVec.ofNat 8 i)) s = .next { s with run := .faulted (.overflow 256) s.pc })) ∧
    (∀ a : Byte, 7 < a.toNat →
      exec (.pop a) s = .next { s with run := .faulted (.outOfBoundsRegister a) s.pc })) ∧
  (∀ a b : Byte, decode defaultOpcodeMap 0x46 a b = .instr (.pop a))

/-- From a Running state whose pc is at most 253 (as at every fetched CALL) under a valid opcode map, CALL of register i
decrements SP, writes the byte pc + 2 to the cell at the new SP, and sets the pc to the register as it stands after
the SP write (the decremented SP for R7); under FaultOverflow with SP = 0 it takes Overflow(-1); a register byte above
7 takes OutOfBounds(register); 50 a decodes to it. (That pc + 2 fits a byte and where CALL R7 jumps are the spec's
inferences from R56 and the statement order, log entries 16 and 12.) (R151.) -/
def Obligations.CallPushesReturnAddress : Prop :=
  (∀ s : State, s.run = .running → s.params.opcodeMap.valid = true → s.pc.toNat ≤ 253 →
    s.pc.toNat + 2 ≤ 255 ∧
    (∀ i : RegIx, s.params.overflowPolicy = .wrap8 ∨ s.reg 7 ≠ 0 →
      exec (.call (BitVec.ofNat 8 i)) s =
        .next { s with
          x := s.x.set 7 (s.reg 7 - 1)
          mem := s.mem.write (s.reg 7 - 1).toNat (BitVec.ofNat 8 (s.pc.toNat + 2))
          pc := zext9 (if i = 7 then s.reg 7 - 1 else s.reg i) }) ∧
    (∀ i : RegIx, s.params.overflowPolicy = .faultOverflow → s.reg 7 = 0 →
      exec (.call (BitVec.ofNat 8 i)) s = .next { s with run := .faulted (.overflow (-1)) s.pc }) ∧
    (∀ a : Byte, 7 < a.toNat →
      exec (.call a) s = .next { s with run := .faulted (.outOfBoundsRegister a) s.pc })) ∧
  (∀ a b : Byte, decode defaultOpcodeMap 0x50 a b = .instr (.call a))

/-- From a Running state under a valid opcode map, RET sets the pc to the byte at SP and increments SP, wrapping under
Wrap8, and changes nothing else; under FaultOverflow with SP = 255 it takes Overflow(256) and writes nothing; 11
decodes to it whatever follows. (R152.) -/
def Obligations.RetPopsPc : Prop :=
  (∀ s : State, s.run = .running → s.params.opcodeMap.valid = true →
    (s.params.overflowPolicy = .wrap8 ∨ s.reg 7 ≠ 255 →
      exec .ret s = .next { s with x := s.x.set 7 (s.reg 7 + 1), pc := zext9 (s.mem.read (s.reg 7).toNat) }) ∧
    (s.params.overflowPolicy = .faultOverflow → s.reg 7 = 255 →
      exec .ret s = .next { s with run := .faulted (.overflow 256) s.pc })) ∧
  (∀ a b : Byte, decode defaultOpcodeMap 0x11 a b = .instr .ret)

/-- From a Running state under a valid opcode map, JMP of register i sets the pc to the register's byte and changes
nothing else; a register byte above 7 takes OutOfBounds(register); 54 a decodes to it; a fetched JMP whose register
holds its own address leaves the state as it is for every number of steps. (R153.) -/
def Obligations.JmpSetsPc : Prop :=
  (∀ s : State, s.run = .running → s.params.opcodeMap.valid = true →
    (∀ i : RegIx, exec (.jmp (BitVec.ofNat 8 i)) s = .next { s with pc := zext9 (s.reg i) }) ∧
    (∀ a : Byte, 7 < a.toNat →
      exec (.jmp a) s = .next { s with run := .faulted (.outOfBoundsRegister a) s.pc })) ∧
  (∀ a b : Byte, decode defaultOpcodeMap 0x54 a b = .instr (.jmp a)) ∧
  (∀ (s : State) (i : RegIx) (n : Nat), s.run = .running → s.params.opcodeMap.valid = true → s.pc.toNat ≤ 253 →
    decode s.params.opcodeMap (s.mem.read s.pc.toNat) (s.mem.read (s.pc.toNat + 1)) (s.mem.read (s.pc.toNat + 2)) =
      .instr (.jmp (BitVec.ofNat 8 i)) →
    zext9 (s.reg i) = s.pc → Host.Core.run core n s = .next s)

/-- From a Running state under a valid opcode map, JEQ of register i sets the pc to the register's byte when E, bit 0 of
FL, is 1, and to pc + 2 otherwise, and changes nothing else; a register byte above 7 takes OutOfBounds(register),
taken or not; 55 a decodes to it. (R154.) -/
def Obligations.JeqBranchesOnEqual : Prop :=
  (∀ s : State, s.run = .running → s.params.opcodeMap.valid = true →
    (∀ i : RegIx, exec (.jeq (BitVec.ofNat 8 i)) s =
      .next { s with pc := if s.fl.getLsbD 0 then zext9 (s.reg i) else s.pc + 2 }) ∧
    (∀ a : Byte, 7 < a.toNat →
      exec (.jeq a) s = .next { s with run := .faulted (.outOfBoundsRegister a) s.pc })) ∧
  (∀ a b : Byte, decode defaultOpcodeMap 0x55 a b = .instr (.jeq a))

/-- From a Running state under a valid opcode map, JNE of register i sets the pc to the register's byte when E, bit 0 of
FL, is 0, and to pc + 2 otherwise, and changes nothing else; a register byte above 7 takes OutOfBounds(register),
taken or not; 56 a decodes to it. (R155.) -/
def Obligations.JneBranchesOnNotEqual : Prop :=
  (∀ s : State, s.run = .running → s.params.opcodeMap.valid = true →
    (∀ i : RegIx, exec (.jne (BitVec.ofNat 8 i)) s =
      .next { s with pc := if !s.fl.getLsbD 0 then zext9 (s.reg i) else s.pc + 2 }) ∧
    (∀ a : Byte, 7 < a.toNat →
      exec (.jne a) s = .next { s with run := .faulted (.outOfBoundsRegister a) s.pc })) ∧
  (∀ a b : Byte, decode defaultOpcodeMap 0x56 a b = .instr (.jne a))

/-- From a Running state under a valid opcode map, INC of register i adds 1 to the register (255 becomes 0 under Wrap8),
advances the pc by its opcode's bits 7:6 plus 1 (2 under the default map), and changes nothing else; under
FaultOverflow a result outside 0..255 takes Overflow with that result; a register byte above 7 takes
OutOfBounds(register); 65 a decodes to it whatever the third byte. (The advance of 2 is that of the default map, the
spec's decision D2 and conflict C1, log entries 2 and 3.) (R180.) -/
def Obligations.IncAddsOne : Prop :=
  (∀ s : State, s.run = .running → s.params.opcodeMap.valid = true →
    (∀ i : RegIx, s.params.overflowPolicy = .wrap8 ∨ s.reg i ≠ 255 →
      exec (.inc (BitVec.ofNat 8 i)) s =
        .next { s with
          x := s.x.set i (s.reg i + 1)
          pc := s.pc + BitVec.ofNat 9 (s.params.opcodeMap.inc.toNat / 64 + 1) }) ∧
    (∀ i : RegIx, s.params.overflowPolicy = .faultOverflow → s.reg i = 255 →
      exec (.inc (BitVec.ofNat 8 i)) s = .next { s with run := .faulted (.overflow 256) s.pc }) ∧
    (∀ a : Byte, 7 < a.toNat →
      exec (.inc a) s = .next { s with run := .faulted (.outOfBoundsRegister a) s.pc })) ∧
  defaultOpcodeMap.inc.toNat / 64 + 1 = 2 ∧
  (∀ a b : Byte, decode defaultOpcodeMap 0x65 a b = .instr (.inc a))

/-- From a Running state under a valid opcode map, DEC of register i subtracts 1 from the register (0 becomes 255 under
Wrap8), advances the pc by its opcode's bits 7:6 plus 1 (2 under the default map), and changes nothing else; under
FaultOverflow a result outside 0..255 takes Overflow with that result; a register byte above 7 takes
OutOfBounds(register); 66 a decodes to it whatever the third byte. (The advance of 2 is that of the default map, the
spec's decision D2 and conflict C1, log entries 2 and 3.) (R181.) -/
def Obligations.DecSubtractsOne : Prop :=
  (∀ s : State, s.run = .running → s.params.opcodeMap.valid = true →
    (∀ i : RegIx, s.params.overflowPolicy = .wrap8 ∨ s.reg i ≠ 0 →
      exec (.dec (BitVec.ofNat 8 i)) s =
        .next { s with
          x := s.x.set i (s.reg i - 1)
          pc := s.pc + BitVec.ofNat 9 (s.params.opcodeMap.dec.toNat / 64 + 1) }) ∧
    (∀ i : RegIx, s.params.overflowPolicy = .faultOverflow → s.reg i = 0 →
      exec (.dec (BitVec.ofNat 8 i)) s = .next { s with run := .faulted (.overflow (-1)) s.pc }) ∧
    (∀ a : Byte, 7 < a.toNat →
      exec (.dec a) s = .next { s with run := .faulted (.outOfBoundsRegister a) s.pc })) ∧
  defaultOpcodeMap.dec.toNat / 64 + 1 = 2 ∧
  (∀ a b : Byte, decode defaultOpcodeMap 0x66 a b = .instr (.dec a))

/-- From a Running state under a valid opcode map, NOT of register i writes 255 - A under Wrap8, advances the pc by its
opcode's bits 7:6 plus 1 (2 under the default map), and changes nothing else; under FaultOverflow it takes
Overflow(-A-1) for every A; a register byte above 7 takes OutOfBounds(register); 69 a decodes to it whatever the third
byte. (The Overflow for every A is the spec's, decision D1, log entry 27.) (R188.) -/
def Obligations.NotComplements : Prop :=
  (∀ s : State, s.run = .running → s.params.opcodeMap.valid = true →
    (∀ i : RegIx, s.params.overflowPolicy = .wrap8 →
      exec (.not (BitVec.ofNat 8 i)) s =
        .next { s with
          x := s.x.set i (BitVec.ofNat 8 (255 - (s.reg i).toNat))
          pc := s.pc + BitVec.ofNat 9 (s.params.opcodeMap.not.toNat / 64 + 1) }) ∧
    (∀ i : RegIx, s.params.overflowPolicy = .faultOverflow →
      exec (.not (BitVec.ofNat 8 i)) s =
        .next { s with run := .faulted (.overflow (-((s.reg i).toNat : Int) - 1)) s.pc }) ∧
    (∀ a : Byte, 7 < a.toNat →
      exec (.not a) s = .next { s with run := .faulted (.outOfBoundsRegister a) s.pc })) ∧
  defaultOpcodeMap.not.toNat / 64 + 1 = 2 ∧
  (∀ a b : Byte, decode defaultOpcodeMap 0x69 a b = .instr (.not a))

/-- From a Running state under a valid opcode map, ADD of registers i and j writes the sum A + B to register i: the result
modulo 256 under Wrap8, the result itself when it is in 0..255, Overflow with the unbounded result under FaultOverflow
otherwise; it advances the pc by 3 and changes nothing else; a register byte above 7 takes OutOfBounds(register), a
before b; A0 a b decodes to it. (R175.) -/
def Obligations.AddFitsSum : Prop :=
  (∀ s : State, s.run = .running → s.params.opcodeMap.valid = true →
    (∀ i j : RegIx, s.params.overflowPolicy = .wrap8 ∨ (s.reg i).toNat + (s.reg j).toNat ≤ 255 →
      exec (.add (BitVec.ofNat 8 i) (BitVec.ofNat 8 j)) s =
        .next { s with x := s.x.set i (BitVec.ofNat 8 ((s.reg i).toNat + (s.reg j).toNat)), pc := s.pc + 3 }) ∧
    (∀ i j : RegIx, s.params.overflowPolicy = .faultOverflow → 255 < (s.reg i).toNat + (s.reg j).toNat →
      exec (.add (BitVec.ofNat 8 i) (BitVec.ofNat 8 j)) s =
        .next { s with run := .faulted (.overflow ((s.reg i).toNat + (s.reg j).toNat : Int)) s.pc }) ∧
    (∀ a b : Byte, 7 < a.toNat →
      exec (.add a b) s = .next { s with run := .faulted (.outOfBoundsRegister a) s.pc }) ∧
    (∀ (i : RegIx) (b : Byte), 7 < b.toNat →
      exec (.add (BitVec.ofNat 8 i) b) s = .next { s with run := .faulted (.outOfBoundsRegister b) s.pc })) ∧
  (∀ a b : Byte, decode defaultOpcodeMap 0xA0 a b = .instr (.add a b))

/-- From a Running state under a valid opcode map, SUB of registers i and j writes the difference A - B to register i: the
result modulo 256 under Wrap8, the result itself when it is in 0..255, Overflow with the unbounded result under
FaultOverflow otherwise; it advances the pc by 3 and changes nothing else; a register byte above 7 takes
OutOfBounds(register), a before b; A1 a b decodes to it. (R176.) -/
def Obligations.SubFitsDifference : Prop :=
  (∀ s : State, s.run = .running → s.params.opcodeMap.valid = true →
    (∀ i j : RegIx, s.params.overflowPolicy = .wrap8 ∨ (s.reg j).toNat ≤ (s.reg i).toNat →
      exec (.sub (BitVec.ofNat 8 i) (BitVec.ofNat 8 j)) s =
        .next { s with x := s.x.set i (BitVec.ofInt 8 ((s.reg i).toNat - (s.reg j).toNat)), pc := s.pc + 3 }) ∧
    (∀ i j : RegIx, s.params.overflowPolicy = .faultOverflow → (s.reg i).toNat < (s.reg j).toNat →
      exec (.sub (BitVec.ofNat 8 i) (BitVec.ofNat 8 j)) s =
        .next { s with run := .faulted (.overflow ((s.reg i).toNat - (s.reg j).toNat : Int)) s.pc }) ∧
    (∀ a b : Byte, 7 < a.toNat →
      exec (.sub a b) s = .next { s with run := .faulted (.outOfBoundsRegister a) s.pc }) ∧
    (∀ (i : RegIx) (b : Byte), 7 < b.toNat →
      exec (.sub (BitVec.ofNat 8 i) b) s = .next { s with run := .faulted (.outOfBoundsRegister b) s.pc })) ∧
  (∀ a b : Byte, decode defaultOpcodeMap 0xA1 a b = .instr (.sub a b))

/-- From a Running state under a valid opcode map, MUL of registers i and j writes the product A * B to register i: the
result modulo 256 under Wrap8, the result itself when it is in 0..255, Overflow with the unbounded result under
FaultOverflow otherwise; it advances the pc by 3 and changes nothing else; a register byte above 7 takes
OutOfBounds(register), a before b; A2 a b decodes to it. (R177.) -/
def Obligations.MulFitsProduct : Prop :=
  (∀ s : State, s.run = .running → s.params.opcodeMap.valid = true →
    (∀ i j : RegIx, s.params.overflowPolicy = .wrap8 ∨ (s.reg i).toNat * (s.reg j).toNat ≤ 255 →
      exec (.mul (BitVec.ofNat 8 i) (BitVec.ofNat 8 j)) s =
        .next { s with x := s.x.set i (BitVec.ofNat 8 ((s.reg i).toNat * (s.reg j).toNat)), pc := s.pc + 3 }) ∧
    (∀ i j : RegIx, s.params.overflowPolicy = .faultOverflow → 255 < (s.reg i).toNat * (s.reg j).toNat →
      exec (.mul (BitVec.ofNat 8 i) (BitVec.ofNat 8 j)) s =
        .next { s with run := .faulted (.overflow ((s.reg i).toNat * (s.reg j).toNat : Int)) s.pc }) ∧
    (∀ a b : Byte, 7 < a.toNat →
      exec (.mul a b) s = .next { s with run := .faulted (.outOfBoundsRegister a) s.pc }) ∧
    (∀ (i : RegIx) (b : Byte), 7 < b.toNat →
      exec (.mul (BitVec.ofNat 8 i) b) s = .next { s with run := .faulted (.outOfBoundsRegister b) s.pc })) ∧
  (∀ a b : Byte, decode defaultOpcodeMap 0xA2 a b = .instr (.mul a b))

/-- From a Running state under a valid opcode map and either overflow policy, DIV of registers i and j with B nonzero
writes the integer quotient A / B exactly to register i, advances the pc by 3 and changes nothing else; with B = 0 it
takes DivisionByZero and writes nothing; a register byte above 7 takes OutOfBounds(register), a before b; A3 a b
decodes to it. (That a zero divisor is fatal and the quotient the floor is the spec's decision D4, log entry 10.)
(R178.) -/
def Obligations.DivWritesQuotient : Prop :=
  (∀ s : State, s.run = .running → s.params.opcodeMap.valid = true →
    (∀ i j : RegIx, s.reg j ≠ 0 →
      exec (.div (BitVec.ofNat 8 i) (BitVec.ofNat 8 j)) s =
        .next { s with x := s.x.set i (BitVec.ofNat 8 ((s.reg i).toNat / (s.reg j).toNat)), pc := s.pc + 3 }) ∧
    (∀ i j : RegIx, s.reg j = 0 →
      exec (.div (BitVec.ofNat 8 i) (BitVec.ofNat 8 j)) s = .next { s with run := .faulted .divisionByZero s.pc }) ∧
    (∀ a b : Byte, 7 < a.toNat →
      exec (.div a b) s = .next { s with run := .faulted (.outOfBoundsRegister a) s.pc }) ∧
    (∀ (i : RegIx) (b : Byte), 7 < b.toNat →
      exec (.div (BitVec.ofNat 8 i) b) s = .next { s with run := .faulted (.outOfBoundsRegister b) s.pc })) ∧
  (∀ a b : Byte, decode defaultOpcodeMap 0xA3 a b = .instr (.div a b))

/-- From a Running state under a valid opcode map and either overflow policy, MOD of registers i and j with B nonzero
writes the remainder A mod B exactly to register i, advances the pc by 3 and changes nothing else; with B = 0 it takes
DivisionByZero and writes nothing; a register byte above 7 takes OutOfBounds(register), a before b; A4 a b decodes to
it. (That a zero divisor is fatal is the spec's decision D4, log entry 10.) (R179.) -/
def Obligations.ModWritesRemainder : Prop :=
  (∀ s : State, s.run = .running → s.params.opcodeMap.valid = true →
    (∀ i j : RegIx, s.reg j ≠ 0 →
      exec (.mod (BitVec.ofNat 8 i) (BitVec.ofNat 8 j)) s =
        .next { s with x := s.x.set i (BitVec.ofNat 8 ((s.reg i).toNat % (s.reg j).toNat)), pc := s.pc + 3 }) ∧
    (∀ i j : RegIx, s.reg j = 0 →
      exec (.mod (BitVec.ofNat 8 i) (BitVec.ofNat 8 j)) s = .next { s with run := .faulted .divisionByZero s.pc }) ∧
    (∀ a b : Byte, 7 < a.toNat →
      exec (.mod a b) s = .next { s with run := .faulted (.outOfBoundsRegister a) s.pc }) ∧
    (∀ (i : RegIx) (b : Byte), 7 < b.toNat →
      exec (.mod (BitVec.ofNat 8 i) b) s = .next { s with run := .faulted (.outOfBoundsRegister b) s.pc })) ∧
  (∀ a b : Byte, decode defaultOpcodeMap 0xA4 a b = .instr (.mod a b))

/-- From a Running state under a valid opcode map, CMP of registers i and j writes FL = 4 when A < B, 2 when A > B, 1 when
A = B (unsigned; bits 7:3 zero), advances the pc by 3 and changes no register; a register byte above 7 takes
OutOfBounds(register), a before b; A7 a b decodes to it. (That bits 7:3 become 0 is the spec's decision D12, log entry
13.) (R182.) -/
def Obligations.CmpWritesFlags : Prop :=
  (∀ s : State, s.run = .running → s.params.opcodeMap.valid = true →
    (∀ i j : RegIx,
      exec (.cmp (BitVec.ofNat 8 i) (BitVec.ofNat 8 j)) s =
        .next { s with
          fl := if (s.reg i).toNat < (s.reg j).toNat then 0b100 else if (s.reg j).toNat < (s.reg i).toNat then 0b010 else 0b001
          pc := s.pc + 3 }) ∧
    (∀ a b : Byte, 7 < a.toNat →
      exec (.cmp a b) s = .next { s with run := .faulted (.outOfBoundsRegister a) s.pc }) ∧
    (∀ (i : RegIx) (b : Byte), 7 < b.toNat →
      exec (.cmp (BitVec.ofNat 8 i) b) s = .next { s with run := .faulted (.outOfBoundsRegister b) s.pc })) ∧
  (∀ a b : Byte, decode defaultOpcodeMap 0xA7 a b = .instr (.cmp a b))

/-- From a Running state under a valid opcode map, AND, OR and XOR of registers i and j write to register i the byte whose
every bit is the and, or, exclusive or of the two registers' bits, advance the pc by 3 and change nothing else; a
register byte above 7 takes OutOfBounds(register), a before b; A8, AA, AB followed by a b decode to them. (R183, R184,
R185.) -/
def Obligations.BitwiseCombineBits : Prop :=
  (∀ s : State, s.run = .running → s.params.opcodeMap.valid = true →
    (∀ i j : RegIx, ∃ v : Byte, (∀ k, v.getLsbD k = ((s.reg i).getLsbD k && (s.reg j).getLsbD k)) ∧
      exec (.and (BitVec.ofNat 8 i) (BitVec.ofNat 8 j)) s = .next { s with x := s.x.set i v, pc := s.pc + 3 }) ∧
    (∀ a b : Byte, 7 < a.toNat →
      exec (.and a b) s = .next { s with run := .faulted (.outOfBoundsRegister a) s.pc }) ∧
    (∀ (i : RegIx) (b : Byte), 7 < b.toNat →
      exec (.and (BitVec.ofNat 8 i) b) s = .next { s with run := .faulted (.outOfBoundsRegister b) s.pc }) ∧
    (∀ i j : RegIx, ∃ v : Byte, (∀ k, v.getLsbD k = ((s.reg i).getLsbD k || (s.reg j).getLsbD k)) ∧
      exec (.or (BitVec.ofNat 8 i) (BitVec.ofNat 8 j)) s = .next { s with x := s.x.set i v, pc := s.pc + 3 }) ∧
    (∀ a b : Byte, 7 < a.toNat →
      exec (.or a b) s = .next { s with run := .faulted (.outOfBoundsRegister a) s.pc }) ∧
    (∀ (i : RegIx) (b : Byte), 7 < b.toNat →
      exec (.or (BitVec.ofNat 8 i) b) s = .next { s with run := .faulted (.outOfBoundsRegister b) s.pc }) ∧
    (∀ i j : RegIx, ∃ v : Byte, (∀ k, v.getLsbD k = ((s.reg i).getLsbD k ^^ (s.reg j).getLsbD k)) ∧
      exec (.xor (BitVec.ofNat 8 i) (BitVec.ofNat 8 j)) s = .next { s with x := s.x.set i v, pc := s.pc + 3 }) ∧
    (∀ a b : Byte, 7 < a.toNat →
      exec (.xor a b) s = .next { s with run := .faulted (.outOfBoundsRegister a) s.pc }) ∧
    (∀ (i : RegIx) (b : Byte), 7 < b.toNat →
      exec (.xor (BitVec.ofNat 8 i) b) s = .next { s with run := .faulted (.outOfBoundsRegister b) s.pc })) ∧
  (∀ a b : Byte, decode defaultOpcodeMap 0xA8 a b = .instr (.and a b) ∧
    decode defaultOpcodeMap 0xAA a b = .instr (.or a b) ∧ decode defaultOpcodeMap 0xAB a b = .instr (.xor a b))

/-- From a Running state under a valid opcode map, SHL of registers i and j writes A times 2 to the power of the whole
byte B to register i: the result modulo 256 under Wrap8, the result itself when it is in 0..255, Overflow with the
unbounded result under FaultOverflow otherwise; it advances the pc by 3 and changes nothing else; a register byte
above 7 takes OutOfBounds(register), a before b; AC a b decodes to it. (That the whole byte is the count is the spec's
decision D13, log entry 14.) (R186.) -/
def Obligations.ShlShiftsLeft : Prop :=
  (∀ s : State, s.run = .running → s.params.opcodeMap.valid = true →
    (∀ i j : RegIx, s.params.overflowPolicy = .wrap8 ∨ (s.reg i).toNat * 2 ^ (s.reg j).toNat ≤ 255 →
      exec (.shl (BitVec.ofNat 8 i) (BitVec.ofNat 8 j)) s =
        .next { s with x := s.x.set i (BitVec.ofNat 8 ((s.reg i).toNat * 2 ^ (s.reg j).toNat)), pc := s.pc + 3 }) ∧
    (∀ i j : RegIx, s.params.overflowPolicy = .faultOverflow → 255 < (s.reg i).toNat * 2 ^ (s.reg j).toNat →
      exec (.shl (BitVec.ofNat 8 i) (BitVec.ofNat 8 j)) s =
        .next { s with run := .faulted (.overflow (((s.reg i).toNat * 2 ^ (s.reg j).toNat : Nat) : Int)) s.pc }) ∧
    (∀ a b : Byte, 7 < a.toNat →
      exec (.shl a b) s = .next { s with run := .faulted (.outOfBoundsRegister a) s.pc }) ∧
    (∀ (i : RegIx) (b : Byte), 7 < b.toNat →
      exec (.shl (BitVec.ofNat 8 i) b) s = .next { s with run := .faulted (.outOfBoundsRegister b) s.pc })) ∧
  (∀ a b : Byte, decode defaultOpcodeMap 0xAC a b = .instr (.shl a b))

/-- From a Running state under a valid opcode map and either overflow policy, SHR of registers i and j writes floor(A /
2^B) to register i (0 for a count of 8 or more, A for a count of 0), advances the pc by 3 and changes nothing else; a
register byte above 7 takes OutOfBounds(register), a before b; AD a b decodes to it. (That the whole byte is the count
is the spec's decision D13, log entry 14.) (R187.) -/
def Obligations.ShrShiftsRight : Prop :=
  (∀ s : State, s.run = .running → s.params.opcodeMap.valid = true →
    (∀ i j : RegIx,
      exec (.shr (BitVec.ofNat 8 i) (BitVec.ofNat 8 j)) s =
        .next { s with x := s.x.set i (BitVec.ofNat 8 ((s.reg i).toNat / 2 ^ (s.reg j).toNat)), pc := s.pc + 3 }) ∧
    (∀ i j : RegIx, 8 ≤ (s.reg j).toNat →
      exec (.shr (BitVec.ofNat 8 i) (BitVec.ofNat 8 j)) s = .next { s with x := s.x.set i 0, pc := s.pc + 3 }) ∧
    (∀ a b : Byte, 7 < a.toNat →
      exec (.shr a b) s = .next { s with run := .faulted (.outOfBoundsRegister a) s.pc }) ∧
    (∀ (i : RegIx) (b : Byte), 7 < b.toNat →
      exec (.shr (BitVec.ofNat 8 i) b) s = .next { s with run := .faulted (.outOfBoundsRegister b) s.pc })) ∧
  (∀ a b : Byte, decode defaultOpcodeMap 0xAD a b = .instr (.shr a b))

/-- For INC, DEC, NOT, LDI, ADD, SUB, MUL, DIV, MOD, AND, OR, XOR, SHL, SHR, with every operand byte: in the next state
every register but the one the first operand names is unchanged, FL, every byte of memory, both logs and the
parameters are unchanged, and either the run is unchanged or only the run has changed (a fatal condition taken). (R23,
R170, R172, R214, 44_alu.md, 41_data_movement.md.) -/
def Obligations.RegisterWritersFrame : Prop :=
  ∀ (s t : State) (a b : Byte) (i : Instr),
    i ∈ [.inc a, .dec a, .not a, .ldi a b, .add a b, .sub a b, .mul a b, .div a b, .mod a b, .and a b, .or a b,
      .xor a b, .shl a b, .shr a b] →
    exec i s = .next t →
    (∀ r : RegIx, r.val ≠ a.toNat → t.reg r = s.reg r) ∧ t.fl = s.fl ∧ (∀ k, t.mem.read k = s.mem.read k) ∧
    t.out = s.out ∧ t.diag = s.diag ∧ t.params = s.params ∧
    (t.run = s.run ∨ ∃ c, t = { s with run := .faulted c s.pc })

/-- For CMP with every operand byte: in the next state every register, every byte of memory, both logs and the parameters
are unchanged, and either the run is unchanged or only the run has changed. (R23, R29, R182, R214.) -/
def Obligations.CmpFrame : Prop :=
  ∀ (s t : State) (a b : Byte), exec (.cmp a b) s = .next t →
    (∀ r, t.reg r = s.reg r) ∧ (∀ k, t.mem.read k = s.mem.read k) ∧
    t.out = s.out ∧ t.diag = s.diag ∧ t.params = s.params ∧
    (t.run = s.run ∨ ∃ c, t = { s with run := .faulted c s.pc })

/-- For JMP, JEQ, JNE, PRN and HLT with every operand byte: in the next state every register, FL, every byte of memory,
the diagnostic log and the parameters are unchanged; the output log is unchanged but for PRN; the run is unchanged, or
only the run has changed. (R23, R29, R51, R130, R214, 43_subroutine_branch.md.) -/
def Obligations.JumpOutputHaltFrame : Prop :=
  ∀ (s t : State) (a : Byte) (i : Instr), i ∈ [.jmp a, .jeq a, .jne a, .prn a, .hlt] → exec i s = .next t →
    (∀ r, t.reg r = s.reg r) ∧ t.fl = s.fl ∧ (∀ k, t.mem.read k = s.mem.read k) ∧ t.diag = s.diag ∧
    t.params = s.params ∧ (i ≠ .prn a → t.out = s.out) ∧
    (t.run = s.run ∨ (i = .hlt ∧ t = { s with run := .halted }) ∨ ∃ c, t = { s with run := .faulted c s.pc })

/-- For PUSH and CALL with every operand byte: in the next state every register but SP, FL, both logs and the parameters
are unchanged; every byte of memory is unchanged but the one cell at the SP that the decrement gives (no cell where
the decrement is a fatal condition); either the run is unchanged or only the run has changed. (R23, R51, R140, R151,
R214.) -/
def Obligations.StackStoresFrame : Prop :=
  ∀ (s t : State) (a : Byte) (i : Instr), i ∈ [.push a, .call a] → exec i s = .next t →
    (∀ r : RegIx, r ≠ 7 → t.reg r = s.reg r) ∧ t.fl = s.fl ∧ t.out = s.out ∧ t.diag = s.diag ∧ t.params = s.params ∧
    (∀ d, s.decSp = .ok d → ∀ k, k ≠ (d.reg spIx).toNat → t.mem.read k = s.mem.read k) ∧
    (∀ c, s.decSp = .error c → ∀ k, t.mem.read k = s.mem.read k) ∧
    (t.run = s.run ∨ ∃ c, t = { s with run := .faulted c s.pc })

/-- For POP and RET with every operand byte: in the next state every register but SP and, for POP, the one its operand
names, FL, every byte of memory, both logs and the parameters are unchanged; either the run is unchanged or only the
run has changed. (R23, R51, R141, R152, R214.) -/
def Obligations.StackLoadsFrame : Prop :=
  ∀ (s t : State) (a : Byte) (i : Instr), i ∈ [.pop a, .ret] → exec i s = .next t →
    (∀ r : RegIx, r ≠ 7 → (i = .pop a → r.val ≠ a.toNat) → t.reg r = s.reg r) ∧ t.fl = s.fl ∧
    (∀ k, t.mem.read k = s.mem.read k) ∧ t.out = s.out ∧ t.diag = s.diag ∧ t.params = s.params ∧
    (t.run = s.run ∨ ∃ c, t = { s with run := .faulted c s.pc })

/-- If a step's next state is Faulted, then it is the state before the step with run = Faulted(cause, pc) for the pc of
the faulting instruction, and nothing else changed: registers, FL, memory, pc, both logs keep their values. (That a
fault is precise is the spec's decision D14, log entry 15.) (R109, R214.) -/
def Obligations.FatalConditionWritesRunOnly : Prop :=
  ∀ (s t : State) (c : Cause) (p : Pc), step s = .next t → t.run = .faulted c p →
    p = s.pc ∧ t = { s with run := .faulted c s.pc }

/-- From a Running state with pc + 2 > 255, a step takes OutOfBounds(fetch) and writes nothing, whatever the bytes are.
(That the window is checked, whatever the instruction's length, is the spec's decision D5, log entry 11.) (R56, R28,
R248.) -/
def Obligations.FetchOutsideMemoryFaults : Prop :=
  ∀ s : State, s.run = .running → 255 < s.pc.toNat + 2 →
    step s = .next { s with run := .faulted .outOfBoundsFetch s.pc }

/-- From a Running state with pc at most 253 whose three bytes at the pc decode, under the machine's opcode map, to an
instruction i, a step is exec of i at that state (exec holds the register checks, the handler and the advance). (R56,
R106.) -/
def Obligations.StepRunsDecodedInstruction : Prop :=
  ∀ (s : State) (i : Instr), s.run = .running → s.pc.toNat ≤ 253 →
    decode s.params.opcodeMap (s.mem.read s.pc.toNat) (s.mem.read (s.pc.toNat + 1)) (s.mem.read (s.pc.toNat + 2)) =
      .instr i →
    step s = exec i s

/-- From a Running state with pc at most 253 under a valid opcode map, if the byte at the pc has bit 5 clear and is no
byte of the map, a step appends (pc, byte) to the diagnostic log and advances the pc by bits 7:6 plus 1 if bit 4 is
clear, leaves it if bit 4 is set; nothing else changes. With bit 4 set, n steps append n reports and leave the pc, for
every n. (R104.) -/
def Obligations.UnknownOpcodeIsReported : Prop :=
  ∀ (s : State) (op : Byte), s.run = .running → s.pc.toNat ≤ 253 → s.params.opcodeMap.valid = true →
    op = s.mem.read s.pc.toNat → op.getLsbD 5 = false → op ∉ s.params.opcodeMap.bytes →
    step s = .next { s with
      diag := s.diag ++ [⟨s.pc, op⟩]
      pc := if op.getLsbD 4 then s.pc else s.pc + BitVec.ofNat 9 (op.toNat / 64 + 1) } ∧
    (op.getLsbD 4 = true → ∀ n, Host.Core.run core n s = .next { s with diag := s.diag ++ List.replicate n ⟨s.pc, op⟩ })

/-- From a Running state with pc at most 253 under a valid opcode map, if the byte at the pc has bit 5 set and is no byte
of the map, a step takes UnsupportedAluOperation with that byte and writes nothing, whatever the operand bytes are.
(That every byte with bit 5 set reaches the ALU is R101's reading, the spec's decision D3, log entry 9.) (R101, R105.) -/
def Obligations.UnsupportedAluByteFaults : Prop :=
  ∀ (s : State) (op : Byte), s.run = .running → s.pc.toNat ≤ 253 → s.params.opcodeMap.valid = true →
    op = s.mem.read s.pc.toNat → op.getLsbD 5 = true → op ∉ s.params.opcodeMap.bytes →
    step s = .next { s with run := .faulted (.unsupportedAluOperation op) s.pc }

/-- From a Halted state, and from a Faulted state, step has no next state; it answers a fault that names which (the
answer's form is the model's choice, log entry 7). (R111, R216, notes/assumptions/7.md.) -/
def Obligations.EndedRunsDoNotStep : Prop :=
  (∀ s : State, s.run = .halted → step s = .fault .halted) ∧
  (∀ (s : State) (c : Cause) (p : Pc), s.run = .faulted c p → step s = .fault (.faulted c p))

/-- If a step's next state is Halted, the three bytes at the pc decode to HLT; a state steps to a next state only when it
is Running. (R111.) -/
def Obligations.OnlyHltHalts : Prop :=
  (∀ s t : State, step s = .next t → t.run = .halted →
    decode s.params.opcodeMap (s.mem.read s.pc.toNat) (s.mem.read (s.pc.toNat + 1)) (s.mem.read (s.pc.toNat + 2)) =
      .instr .hlt) ∧
  (∀ s t : State, step s = .next t → s.run = .running)

/-- From every Running state, whatever its memory, registers, pc and parameters, step answers a next state; no step is
ever refused. (R72, R106, R113.) -/
def Obligations.RunningStatesStep : Prop :=
  (∀ s : State, s.run = .running → ∃ t, step s = .next t) ∧ (∀ (s : State) (r : Refusal), step s ≠ .refused r)

/-- If a step changes FL, the bytes at the pc decode to a CMP and the new FL has bits 7:3 zero with L, G, E in bits 2, 1,
0; and a step that is no JEQ or JNE does the same to everything but FL whatever FL is. (That bits 7:3 become 0 is the
spec's decision D12, log entry 13.) (R29.) -/
def Obligations.OnlyCmpWritesFl : Prop :=
  (∀ s t : State, step s = .next t → t.fl ≠ s.fl → ∃ a b : Byte,
    decode s.params.opcodeMap (s.mem.read s.pc.toNat) (s.mem.read (s.pc.toNat + 1)) (s.mem.read (s.pc.toNat + 2)) =
      .instr (.cmp a b)) ∧
  (∀ (s t : State) (i j : RegIx), exec (.cmp (BitVec.ofNat 8 i) (BitVec.ofNat 8 j)) s = .next t →
    t.fl.toNat < 8 ∧ t.fl.getLsbD 2 = decide ((s.reg i).toNat < (s.reg j).toNat) ∧
    t.fl.getLsbD 1 = decide ((s.reg j).toNat < (s.reg i).toNat) ∧ t.fl.getLsbD 0 = decide (s.reg i = s.reg j)) ∧
  (∀ (i : Instr) (s t : State) (f : Byte), (∀ a, i ≠ .jeq a ∧ i ≠ .jne a) → exec i s = .next t →
    ∃ u, exec i { s with fl := f } = .next u ∧ { u with fl := t.fl } = t)

/-- If a step changes memory, the bytes at the pc decode to PUSH or CALL; and an instruction that is neither POP nor RET
does the same to everything but memory whatever memory holds. (R51.) -/
def Obligations.OnlyPushAndCallWriteMemory : Prop :=
  (∀ s t : State, step s = .next t → t.mem ≠ s.mem → ∃ a : Byte,
    decode s.params.opcodeMap (s.mem.read s.pc.toNat) (s.mem.read (s.pc.toNat + 1)) (s.mem.read (s.pc.toNat + 2)) =
      .instr (.push a) ∨
    decode s.params.opcodeMap (s.mem.read s.pc.toNat) (s.mem.read (s.pc.toNat + 1)) (s.mem.read (s.pc.toNat + 2)) =
      .instr (.call a)) ∧
  (∀ (i : Instr) (s t : State) (m : Memory), i ≠ .ret → (∀ a, i ≠ .pop a) → exec i s = .next t →
    ∃ u, exec i { s with mem := m } = .next u ∧ { u with mem := t.mem } = t)

/-- The reset state, and every state a launch gives (any parameters, image and entry byte it does not refuse), meets the
invariant: memory canonical, opcode map valid, pc at most 257, FL one of 000, 001, 010, 100. (That the map is valid
rests on the model's choice that a launch refuses another map, log entry 19, and on its inference that the bytes are
distinct, log entry 23.) (R37, R241, R243, R77.) -/
def Obligations.LaunchedStatesMeetInvariant : Prop :=
  State.reset.Inv ∧
  (∀ (p : Params) (image : List Byte) (entry : Byte) (s : State), State.launch p image entry = .ok s → s.Inv)

/-- From every state that meets the invariant (memory canonical, opcode map valid, pc at most 257, FL one of 000, 001,
010, 100), a step that answers a next state gives one that meets it, with the same parameters. (R26, R29, R50, R73,
R77.) -/
def Obligations.StepKeepsInvariant : Prop :=
  ∀ s t : State, s.Inv → step s = .next t → t.Inv ∧ t.params = s.params

/-- For every opcode map that meets R77 with distinct bytes, every instruction with every operand byte (well formed or
not), and whatever bytes follow: the encoding has operand_count + 1 bytes, and decoding it gives the instruction back.
(The filler byte of INC, DEC and NOT under a count of 2 is the model's choice, log entry 22; what a valid map is, its
inference, log entry 23.) (R70, R74, R76, R77, R81.) -/
def Obligations.DecodeOfEncode : Prop :=
  ∀ (m : OpcodeMap) (i : Instr) (rest : List Byte), m.valid = true →
    (encode m i).length = operandCount (opcode m i) + 1 ∧ decodeBytes m (encode m i ++ rest) = .instr i

/-- Under every opcode map, if the bytes op, a, b decode to an instruction, op is that instruction's opcode byte and its
operands are the first of a, b; and any other bytes that agree with its operands decode to the same instruction. (R75,
R76, R103.) -/
def Obligations.DecodeIsExact : Prop :=
  ∀ (m : OpcodeMap) (op a b : Byte) (i : Instr), decode m op a b = .instr i →
    op = opcode m i ∧ i.operands <+: [a, b] ∧ (∀ a' b' : Byte, i.operands <+: [a', b'] → decode m op a' b' = .instr i)

/-- Under every valid map a byte decodes to an instruction exactly when the map assigns it, to UnsupportedAluOperation
exactly when it is unassigned with bit 5 set, to UnknownOpcode exactly when it is unassigned with bit 5 clear,
whatever the operand bytes; under the default map 24 bytes are assigned and the classes U-ALU, U-skip, U-stay have
114, 59 and 59 bytes. Their outcomes from a Running state with pc at most 253 are the fatal condition, a report with
the advance, a report without. (The classes are the spec's inference, by C2 and D3, log entries 8 and 9.) (R79.) -/
def Obligations.UnassignedByteClasses : Prop :=
  (∀ (m : OpcodeMap) (op a b : Byte), m.valid = true →
    ((∃ i, decode m op a b = .instr i) ↔ op ∈ m.bytes) ∧
    (decode m op a b = .unsupportedAlu op ↔ op ∉ m.bytes ∧ op.getLsbD 5 = true) ∧
    (decode m op a b = .unknownOpcode op ↔ op ∉ m.bytes ∧ op.getLsbD 5 = false)) ∧
  (let unassigned := ((List.range 256).map (BitVec.ofNat 8)).filter fun op => !defaultOpcodeMap.bytes.contains op
   defaultOpcodeMap.bytes.length = 24 ∧ unassigned.length = 232 ∧
   (unassigned.filter fun op => op.getLsbD 5).length = 114 ∧
   (unassigned.filter fun op => !op.getLsbD 5 && !op.getLsbD 4).length = 59 ∧
   (unassigned.filter fun op => !op.getLsbD 5 && op.getLsbD 4).length = 59) ∧
  (∀ (s : State) (op : Byte), s.run = .running → s.pc.toNat ≤ 253 → s.params.opcodeMap.valid = true →
    op = s.mem.read s.pc.toNat → op ∉ s.params.opcodeMap.bytes →
    (op.getLsbD 5 = true → step s = .next { s with run := .faulted (.unsupportedAluOperation op) s.pc }) ∧
    (op.getLsbD 5 = false → op.getLsbD 4 = false →
      step s = .next { s with diag := s.diag ++ [⟨s.pc, op⟩], pc := s.pc + BitVec.ofNat 9 (op.toNat / 64 + 1) }) ∧
    (op.getLsbD 5 = false → op.getLsbD 4 = true → step s = .next { s with diag := s.diag ++ [⟨s.pc, op⟩] }))

/-- Under the default map: 82 00 08 is LDI R0,8; 45 07 is PUSH R7; 50 01 is CALL R1; A7 00 01 is CMP R0,R1; 69 02 is NOT
R2; 01 is HLT; 00 and C0 are unknown; E0 and FF are unsupported ALU bytes; and the default map is valid. (R76, R78,
95_test_vectors.md.) -/
def Obligations.SpecWordsDecode : Prop :=
  decode defaultOpcodeMap 0x82 0x00 0x08 = .instr (.ldi 0 8) ∧ decode defaultOpcodeMap 0x45 0x07 0x00 = .instr (.push 7) ∧
  decode defaultOpcodeMap 0x50 0x01 0x00 = .instr (.call 1) ∧ decode defaultOpcodeMap 0xA7 0x00 0x01 = .instr (.cmp 0 1) ∧
  decode defaultOpcodeMap 0x69 0x02 0xFF = .instr (.not 2) ∧ decode defaultOpcodeMap 0x01 0x09 0x09 = .instr .hlt ∧
  decode defaultOpcodeMap 0x00 0x00 0x00 = .unknownOpcode 0x00 ∧ decode defaultOpcodeMap 0xC0 0x00 0x00 = .unknownOpcode 0xC0 ∧
  decode defaultOpcodeMap 0xE0 0x01 0x00 = .unsupportedAlu 0xE0 ∧ decode defaultOpcodeMap 0xFF 0x09 0x09 = .unsupportedAlu 0xFF ∧
  defaultOpcodeMap.valid = true

/-- For every byte the decoder gives operand_count = bits 7:6 (the byte shifted right by 6), is_alu = bit 5 and sets_pc =
bit 4. (R72.) -/
def Obligations.DecoderFields : Prop :=
  ∀ op : Byte, operandCount op = op.toNat / 2 ^ 6 ∧ isAlu op = op.toNat.testBit 5 ∧ setsPc op = op.toNat.testBit 4

/-- From every Running state with canonical memory under a valid map, and under FaultOverflow with SP nonzero: PUSH of any
register (R7 included) has a next state, POP of the same register from there has a next state, and all eight registers
are as before. (That R7 is covered is the spec's inference from R140 and R141, log entry 12.) (R142.) -/
def Obligations.PushThenPopRestores : Prop :=
  ∀ (s : State) (i : RegIx), s.run = .running → s.params.opcodeMap.valid = true → s.mem.wf = true →
    s.params.overflowPolicy = .wrap8 ∨ s.reg 7 ≠ 0 →
    ∃ t u, exec (.push (BitVec.ofNat 8 i)) s = .next t ∧ exec (.pop (BitVec.ofNat 8 i)) t = .next u ∧
      u.run = .running ∧ u.reg i = s.reg i ∧ ∀ r, u.reg r = s.reg r

/-- From every Running state with canonical memory and pc at most 253 under a valid map, and under FaultOverflow with SP
nonzero: CALL of any register has a next state t, and RET from every Running state with t's parameters, SP and byte at
SP has a next state whose pc is the CALL's pc + 2 and whose SP is the one before the CALL. JEQ and JNE land on the
target when taken and on pc + 2 otherwise. (The law's pc is read as pc + 2 by the spec's conflict C5 and inference
from R151 and R152.) (R156.) -/
def Obligations.CallThenRetReturns : Prop :=
  (∀ (s : State) (i : RegIx), s.run = .running → s.params.opcodeMap.valid = true → s.mem.wf = true →
    s.pc.toNat ≤ 253 → s.params.overflowPolicy = .wrap8 ∨ s.reg 7 ≠ 0 →
    ∃ t, exec (.call (BitVec.ofNat 8 i)) s = .next t ∧ t.run = .running ∧
      ∀ r : State, r.run = .running → r.params = t.params → r.reg 7 = t.reg 7 →
        r.mem.read (t.reg 7).toNat = t.mem.read (t.reg 7).toNat →
        ∃ u, exec .ret r = .next u ∧ u.run = .running ∧ u.pc = s.pc + 2 ∧ u.reg 7 = s.reg 7) ∧
  (∀ (s : State) (i : RegIx), s.run = .running → s.params.opcodeMap.valid = true →
    (∃ t, exec (.jeq (BitVec.ofNat 8 i)) s = .next t ∧ t.pc = if s.fl.getLsbD 0 then zext9 (s.reg i) else s.pc + 2) ∧
    (∃ t, exec (.jne (BitVec.ofNat 8 i)) s = .next t ∧ t.pc = if s.fl.getLsbD 0 then s.pc + 2 else zext9 (s.reg i)))

/-- For all bytes A and B: the flag byte CMP computes is 4, 2 or 1; it is 1 exactly when A = B; bit 2 of it is bit 1 of
the flag byte for the swapped operands. (R29, R172, R182.) -/
def Obligations.CompareIsOneHot : Prop :=
  ∀ A B : Byte,
    (cmpFlags A B = 0b100 ∨ cmpFlags A B = 0b010 ∨ cmpFlags A B = 0b001) ∧ (cmpFlags A B = 0b001 ↔ A = B) ∧
    (cmpFlags A B).getLsbD 2 = (cmpFlags B A).getLsbD 1 ∧ (cmpFlags A B).getLsbD 0 = (cmpFlags B A).getLsbD 0

/-- For every state and every number of steps: if the run under FaultOverflow reaches a state that is not Faulted with an
Overflow, then the run under Wrap8 of the same number of steps reaches the same state (but for the policy it carries).
(R171, R173, 92_eei_decisions.md D1.) -/
def Obligations.FaultOverflowRunsAreWrapRuns : Prop :=
  ∀ (n : Nat) (s t : State), Host.Core.run core n (s.withPolicy .faultOverflow) = .next t →
    (∀ r p, t.run ≠ .faulted (.overflow r) p) → Host.Core.run core n (s.withPolicy .wrap8) = .next (t.withPolicy .wrap8)

/-- No step takes OutOfBounds(data), under either policy; no step takes Overflow under Wrap8; an Overflow taken under
FaultOverflow records a result outside 0..255. (R53, R54, R171, R211.) -/
def Obligations.UnreachableCauses : Prop :=
  ∀ (s t : State) (c : Cause) (p : Pc), step s = .next t → t.run = .faulted c p →
    (∀ a, c ≠ .outOfBoundsData a) ∧
    (∀ r, c = .overflow r → s.params.overflowPolicy = .faultOverflow ∧ ¬ (0 ≤ r ∧ r ≤ 255))

/-- From a Running state under a valid map, for all registers i and j and r the native result of ADD, SUB, MUL, DIV or MOD
(B nonzero for the last two) on the values before the instruction: under Wrap8 the instruction completes and register
i holds r mod 256; under FaultOverflow it completes with register i holding r, or takes Overflow(r); register j is
unchanged when i and j differ. (The two policies' results are the spec's inference from R171, decision D1.) (R173.) -/
def Obligations.ArithmeticIsExact : Prop :=
  ∀ (s : State) (i j : RegIx) (op : Byte → Byte → Instr) (r : Int), s.run = .running → s.params.opcodeMap.valid = true →
    (op, r) ∈ [(Instr.add, ((s.reg i).toNat + (s.reg j).toNat : Int)), (Instr.sub, ((s.reg i).toNat - (s.reg j).toNat : Int)),
      (Instr.mul, ((s.reg i).toNat * (s.reg j).toNat : Int))] ∨
    s.reg j ≠ 0 ∧
      (op, r) ∈ [(Instr.div, ((s.reg i).toNat / (s.reg j).toNat : Int)), (Instr.mod, ((s.reg i).toNat % (s.reg j).toNat : Int))] →
    ∃ t, exec (op (BitVec.ofNat 8 i) (BitVec.ofNat 8 j)) s = .next t ∧ (i ≠ j → t.reg j = s.reg j) ∧
      (s.params.overflowPolicy = .wrap8 → t.run = .running ∧ ((t.reg i).toNat : Int) = r % 256) ∧
      (s.params.overflowPolicy = .faultOverflow →
        (t.run = .running ∧ ((t.reg i).toNat : Int) = r) ∨ t.run = .faulted (.overflow r) s.pc)

/-- For every valid opcode map, policy and entry byte: an image of at most 256 bytes launches into a state whose cell k
holds byte k of the image and whose cells past the image hold 0; a longer image is refused. (The refusal of an invalid
map is the model's own, log entry 19, and is not stated here.) (That a longer image is refused is the spec's decision
D24, log entry 19.) (R243.) -/
def Obligations.LaunchPlacesImage : Prop :=
  ∀ (p : Params) (image : List Byte) (entry : Byte), p.opcodeMap.valid = true →
    (image.length ≤ 256 → ∃ s, State.launch p image entry = .ok s ∧ ∀ k, s.mem.read k = image.getD k 0) ∧
    (256 < image.length → State.launch p image entry = .error .imageTooLong)

/-- After reset every cell reads 0, R0 to R6 are 0, SP is 0xF4, FL is 0, the pc is 0, the run is Running and both logs are
empty; a launch gives the same but for the image and the entry pc. (FL and the entry pc are the spec's decisions D9
and D8, the default parameters its R9.) (R37, R240, R242, notes/assumptions/4.md.) -/
def Obligations.ResetValues : Prop :=
  (∀ k, State.reset.mem.read k = 0) ∧ (∀ r : RegIx, State.reset.reg r = if r = 7 then 0xF4 else 0) ∧
  State.reset.fl = 0 ∧ State.reset.pc = 0 ∧ State.reset.run = .running ∧ State.reset.out = [] ∧ State.reset.diag = [] ∧
  State.reset.params.overflowPolicy = .wrap8 ∧ State.reset.params.opcodeMap = defaultOpcodeMap ∧
  (∀ (p : Params) (image : List Byte) (entry : Byte) (s : State), State.launch p image entry = .ok s →
    s.x = State.reset.x ∧ s.fl = 0 ∧ s.pc = zext9 entry ∧ s.run = .running ∧ s.out = [] ∧ s.diag = [] ∧ s.params = p)

/-- From a Running state with canonical memory under a valid map, when PUSH or CALL of register i completes: the cell at
the new SP reads as the byte it stored (for PUSH the register as it stands after the decrement, for CALL pc + 2), and
a fetch at that address, if its window is in memory, gives that byte as the opcode. (What PUSH R7 stores is the spec's
decision D11, log entry 12; R66 is the spec's inference from R56 and R63; at a pc above 253, where no step runs a
CALL, the byte of pc + 2 is the model's inference, log entry 16.) (R63, R66, R140, R151.) -/
def Obligations.WrittenByteIsFetchedNext : Prop :=
  ∀ (s t : State) (i : RegIx) (v : Byte), s.run = .running → s.params.opcodeMap.valid = true → s.mem.wf = true →
    (exec (.push (BitVec.ofNat 8 i)) s = .next t ∧ v = (if i = 7 then s.reg 7 - 1 else s.reg i)) ∨
      (exec (.call (BitVec.ofNat 8 i)) s = .next t ∧ v = BitVec.ofNat 8 (s.pc.toNat + 2)) →
    t.run = .running →
    t.mem.read (t.reg 7).toNat = v ∧
    ((t.reg 7).toNat ≤ 253 → ∃ w, ({ t with pc := zext9 (t.reg 7) } : State).fetch = .ok w ∧ w.ir = v)

/-- For every instruction and state: if one of the operand bytes it uses as a register index is above 7, exec takes
OutOfBounds(register) with the first such byte and writes nothing (JEQ and JNE taken or not); if none is, exec takes
no OutOfBounds(register). (The check and its order are the spec's decision D5, log entry 11.) (R108.) -/
def Obligations.RegisterChecksComeFirst : Prop :=
  ∀ (i : Instr) (s : State),
    (∀ r : Byte, i.regOperands.find? (fun b => decide (7 < b.toNat)) = some r →
      exec i s = .next { s with run := .faulted (.outOfBoundsRegister r) s.pc }) ∧
    (i.wf = true → s.run = .running → ∀ (t : State) (r : Byte) (p : Pc), exec i s = .next t →
      t.run ≠ .faulted (.outOfBoundsRegister r) p)

/-- From a Running state under a valid map, if an instruction that does not set the pc completes and the run goes on, the
pc has advanced by bits 7:6 of its opcode byte plus 1; after HLT or a fatal condition the pc is unchanged. (R27, R110,
R74, R131.) -/
def Obligations.DefaultAdvance : Prop :=
  ∀ (i : Instr) (s t : State), s.params.opcodeMap.valid = true → exec i s = .next t →
    (i.setsPc = false → t.run = .running → t.pc = s.pc + BitVec.ofNat 9 (operandCount (opcode s.params.opcodeMap i) + 1)) ∧
    (t.run ≠ .running → s.run = .running → t.pc = s.pc)

/-- From a Running state with pc at most 253 under a valid map, CALL, RET, JMP, JEQ and JNE leave a pc in 0..255; every
step from such a pc leaves a pc of at most 257. (R26, R150, R151, R152.) -/
def Obligations.ControlTargetsAreBytes : Prop :=
  (∀ (i : Instr) (s t : State), s.params.opcodeMap.valid = true → s.pc.toNat ≤ 253 → i.setsPc = true →
    exec i s = .next t → t.pc.toNat ≤ 255) ∧
  (∀ s t : State, s.params.opcodeMap.valid = true → s.pc.toNat ≤ 253 → step s = .next t → t.pc.toNat ≤ 257)

/-- For every state and any bytes o and reports d put before its logs: a step from the state with the longer logs has the
next state of the step from the state, with the same o and d before its logs; and a step only appends to each log.
(R34, R35, R114.) -/
def Obligations.LogsAreWriteOnly : Prop :=
  ∀ (s t : State) (o : List Byte) (d : List Report), step s = .next t →
    step { s with out := o ++ s.out, diag := d ++ s.diag } = .next { t with out := o ++ t.out, diag := d ++ t.diag } ∧
    s.out <+: t.out ∧ s.diag <+: t.diag

/-- For every state and every two FL bytes with the same bit 0: a step from the state with the one and from the state with
the other have next states that differ in FL at most, and that have the same bit 0 of FL; the trace does not show FL.
(The rule is the spec's inference from R29 and the trace's contents in R224.) (R30.) -/
def Obligations.OnlyEqualFlagIsRead : Prop :=
  (∀ (s t : State) (f g : Byte), f.getLsbD 0 = g.getLsbD 0 → step { s with fl := f } = .next t →
    ∃ u, step { s with fl := g } = .next u ∧ { u with fl := t.fl } = t ∧ u.fl.getLsbD 0 = t.fl.getLsbD 0) ∧
  (∀ (s : State) (f : Byte), ({ s with fl := f } : State).trace = s.trace)
end

