-- ==== Sys2Proof/Laws/Opcodes.lean ====
section
/-! SUPPORT. What R77 says of an opcode byte, read off a valid opcode map, and the distinctness of its bytes. -/

namespace Sys2Proof

theorem operandCount_eq (op : Byte) : operandCount op = classBits op / 4 := by
  unfold operandCount classBits
  rw [BitVec.toNat_ushiftRight, Nat.shiftRight_eq_div_pow, Nat.div_div_eq_div_mul]

theorem setsPc_eq (op : Byte) : setsPc op = (classBits op).testBit 0 := by
  simp only [setsPc, classBits, BitVec.getLsbD]
  rw [show (16 : Nat) = 2 ^ 4 from rfl, Nat.testBit_div_two_pow]

theorem isAlu_eq (op : Byte) : isAlu op = (classBits op).testBit 1 := by
  simp only [isAlu, classBits, BitVec.getLsbD]
  rw [show (16 : Nat) = 2 ^ 4 from rfl, Nat.testBit_div_two_pow]

/-- The three outputs of the decoder for a byte whose class bits are known. -/
theorem decoder_of_class {op : Byte} {c : Nat} (h : classBits op = c) :
    operandCount op = c / 4 ∧ isAlu op = c.testBit 1 ∧ setsPc op = c.testBit 0 := by
  subst h
  exact ⟨operandCount_eq op, isAlu_eq op, setsPc_eq op⟩

/-- The class bits a valid map gives each instruction (R77). -/
theorem opcode_class {m : OpcodeMap} (hm : m.valid = true) (i : Instr) :
    classBits (opcode m i) = 4 * i.operands.length + 2 * i.aluClass.toNat + i.setsPc.toNat ∨
    (i.lengthOpen = true ∧ classBits (opcode m i) = 10) := by
  simp only [OpcodeMap.valid, OpcodeMap.bitsOk, Bool.and_eq_true, Bool.or_eq_true, beq_iff_eq] at hm
  cases i <;>
    simp only [opcode, Instr.operands, Instr.aluClass, Instr.setsPc, Instr.lengthOpen, List.length_nil, List.length_cons,
      Bool.toNat_true, Bool.toNat_false] <;> simp_all

/-- Bit 5 of a valid opcode (R77). -/
theorem isAlu_opcode {m : OpcodeMap} (hm : m.valid = true) (i : Instr) : isAlu (opcode m i) = i.aluClass := by
  rcases opcode_class hm i with h | ⟨ho, h⟩ <;> rw [(decoder_of_class h).2.1]
  · cases i <;> simp only [Instr.operands, Instr.aluClass, Instr.setsPc, List.length_nil, List.length_cons,
      Bool.toNat_true, Bool.toNat_false] <;> decide
  · cases i <;> first | rfl | cases ho

/-- Bit 4 of a valid opcode (R77). -/
theorem setsPc_opcode {m : OpcodeMap} (hm : m.valid = true) (i : Instr) : setsPc (opcode m i) = i.setsPc := by
  rcases opcode_class hm i with h | ⟨ho, h⟩ <;> rw [(decoder_of_class h).2.2]
  · cases i <;> simp only [Instr.operands, Instr.aluClass, Instr.setsPc, List.length_nil, List.length_cons,
      Bool.toNat_true, Bool.toNat_false] <;> decide
  · cases i <;> first | rfl | cases ho

/-- Bits 7:6 of a valid opcode (R77), for every instruction but INC, DEC and NOT. -/
theorem operandCount_opcode {m : OpcodeMap} (hm : m.valid = true) {i : Instr} (hi : i.lengthOpen = false) :
    operandCount (opcode m i) = i.operands.length := by
  rcases opcode_class hm i with h | ⟨ho, h⟩
  · rw [(decoder_of_class h).1]
    have h3 : 2 * i.aluClass.toNat + i.setsPc.toNat ≤ 3 := by
      cases i.aluClass <;> cases i.setsPc <;> decide
    omega
  · rw [hi] at ho; cases ho

/-- Bits 7:6 of a valid INC, DEC or NOT: 1 or 2 (R77, C1). -/
theorem operandCount_opcode_open {m : OpcodeMap} (hm : m.valid = true) {i : Instr} (hi : i.lengthOpen = true) :
    operandCount (opcode m i) = 1 ∨ operandCount (opcode m i) = 2 := by
  rcases opcode_class hm i with h | ⟨-, h⟩ <;> rw [(decoder_of_class h).1]
  · cases i <;> first | (left; simp [Instr.operands, Instr.aluClass, Instr.setsPc]; done) | cases hi
  · exact .inr rfl

/-- No operand byte is lost: the count covers the operands an instruction uses. -/
theorem operands_le_count {m : OpcodeMap} (hm : m.valid = true) (i : Instr) :
    i.operands.length ≤ operandCount (opcode m i) := by
  cases hi : i.lengthOpen
  · exact (operandCount_opcode hm hi).ge
  · have h1 : i.operands.length = 1 := by cases i <;> first | rfl | cases hi
    rcases operandCount_opcode_open hm hi with h | h <;> omega

/-- An opcode is one of the map's bytes. -/
theorem opcode_mem (m : OpcodeMap) (i : Instr) : opcode m i ∈ m.bytes := by
  cases i <;> simp [opcode, OpcodeMap.bytes]

theorem valid_nodup {m : OpcodeMap} (hm : m.valid = true) : m.bytes.Nodup := by
  simp only [OpcodeMap.valid, Bool.and_eq_true, decide_eq_true_eq] at hm
  exact hm.2

end Sys2Proof
end

