-- ==== Sys2Proof/Laws/Decode.lean ====
section
/-! SUPPORT. What the dispatcher and the ALU's case labels can answer, and what they say of an unassigned byte. -/

namespace Sys2Proof

/-- Everything the dispatcher can answer. -/
theorem dispatch_cases {m : OpcodeMap} {op : Byte} {h : Handler} (hd : dispatch m op = h) :
    h = .alu ∨ h = .unknown ∨ (h = .hlt ∧ op = m.hlt) ∨ (h = .ldi ∧ op = m.ldi) ∨ (h = .prn ∧ op = m.prn) ∨
    (h = .push ∧ op = m.push) ∨ (h = .pop ∧ op = m.pop) ∨ (h = .call ∧ op = m.call) ∨ (h = .ret ∧ op = m.ret) ∨
    (h = .jmp ∧ op = m.jmp) ∨ (h = .jeq ∧ op = m.jeq) ∨ (h = .jne ∧ op = m.jne) := by
  subst hd
  unfold dispatch
  repeat' split
  all_goals simp [*]

/-- One case label of a decoder that answers an instruction. -/
theorem ite_instr {c : Prop} [Decidable c] {x i : Instr} {r : Decoded} (h : (if c then .instr x else r) = .instr i) :
    (c ∧ x = i) ∨ (¬ c ∧ r = .instr i) := by
  by_cases hc : c
  · rw [if_pos hc] at h; injection h with h; exact .inl ⟨hc, h⟩
  · rw [if_neg hc] at h; exact .inr ⟨hc, h⟩

/-- An ALU case label that matches is the opcode of the instruction it answers. -/
theorem decodeAlu_opcode {m : OpcodeMap} {op a b : Byte} {i : Instr} (h : decodeAlu m op a b = .instr i) :
    op = opcode m i := by
  unfold decodeAlu at h
  iterate 14
    rcases ite_instr h with ⟨ho, rfl⟩ | ⟨-, h⟩
    · exact ho
  cases h

theorem mem_bytes_iff {m : OpcodeMap} {op : Byte} : op ∈ m.bytes ↔
    op = m.hlt ∨ op = m.ret ∨ op = m.push ∨ op = m.pop ∨ op = m.prn ∨ op = m.call ∨ op = m.jmp ∨ op = m.jeq ∨ op = m.jne ∨
    op = m.inc ∨ op = m.dec ∨ op = m.not ∨ op = m.ldi ∨ op = m.add ∨ op = m.sub ∨ op = m.mul ∨ op = m.div ∨ op = m.mod ∨
    op = m.cmp ∨ op = m.and ∨ op = m.or ∨ op = m.xor ∨ op = m.shl ∨ op = m.shr := by
  simp [OpcodeMap.bytes]

/-- An unassigned byte with bit 5 clear has no handler (R101, R104). -/
theorem decode_unknown {m : OpcodeMap} {op : Byte} (h5 : isAlu op = false) (h : op ∉ m.bytes) (a b : Byte) :
    decode m op a b = .unknownOpcode op := by
  simp only [mem_bytes_iff, not_or] at h
  simp only [decode, dispatch, h5]
  simp [h]

/-- An unassigned byte with bit 5 set matches no case label of the ALU (R101, R105). -/
theorem decode_unsupported {m : OpcodeMap} {op : Byte} (h5 : isAlu op = true) (h : op ∉ m.bytes) (a b : Byte) :
    decode m op a b = .unsupportedAlu op := by
  simp only [mem_bytes_iff, not_or] at h
  simp only [decode, dispatch, h5, decodeAlu]
  simp [h]

end Sys2Proof
end

