-- ==== Sys2Proof/Laws/Memory.lean ====
section
/-! SUPPORT. The laws of memory: read after write, writes elsewhere, and the canonical form that every operation keeps. -/

namespace Sys2Proof.Machine

@[simp] theorem Memory.read_nil (k : Nat) : Memory.read [] k = 0 := rfl

theorem Memory.wfFrom_cons {lo j : Nat} {v : Byte} {m : Memory} :
    Memory.wfFrom lo ((j, v) :: m) = true ↔ (lo ≤ j ∧ j < 256 ∧ v ≠ 0) ∧ Memory.wfFrom (j + 1) m = true := by
  simp [Memory.wfFrom, and_assoc]

theorem Memory.wfFrom_mono {m : Memory} {lo lo' : Nat} (h : lo' ≤ lo) (hm : Memory.wfFrom lo m = true) :
    Memory.wfFrom lo' m = true := by
  cases m with
  | nil => rfl
  | cons c m =>
    obtain ⟨j, v⟩ := c
    rw [Memory.wfFrom_cons] at hm ⊢
    exact ⟨⟨by omega, hm.1.2⟩, hm.2⟩

/-- Below the first address a list may hold, memory reads 0. -/
theorem Memory.read_below {m : Memory} {lo k : Nat} (hm : Memory.wfFrom lo m = true) (h : k < lo) : m.read k = 0 := by
  induction m generalizing lo with
  | nil => rfl
  | cons c m ih =>
    obtain ⟨j, v⟩ := c
    rw [Memory.wfFrom_cons] at hm
    simp only [Memory.read]
    rw [if_neg (by omega), ih hm.2 (by omega)]

/-- A cell other than the written one keeps its byte. -/
theorem Memory.read_write_of_ne (m : Memory) {k j : Nat} (v : Byte) (h : j ≠ k) : (m.write k v).read j = m.read j := by
  induction m with
  | nil => simp only [Memory.write]; split <;> simp [Memory.read, Ne.symm h]
  | cons c m ih =>
    obtain ⟨l, w⟩ := c
    simp only [Memory.write]
    split
    · split <;> simp [Memory.read, Ne.symm h]
    · split
      · rename_i hkl
        subst hkl
        split <;> simp [Memory.read, Ne.symm h]
      · simp [Memory.read, ih]

theorem Memory.read_write_self_from {m : Memory} {lo k : Nat} (v : Byte) (hm : Memory.wfFrom lo m = true) :
    (m.write k v).read k = v := by
  induction m generalizing lo with
  | nil => simp only [Memory.write]; split <;> simp_all [Memory.read]
  | cons c m ih =>
    obtain ⟨j, w⟩ := c
    rw [Memory.wfFrom_cons] at hm
    simp only [Memory.write]
    split
    · split
      · simp only [Memory.read]
        rw [if_neg (by omega), Memory.read_below hm.2 (by omega)]; simp_all
      · simp [Memory.read]
    · split
      · split
        · rw [Memory.read_below hm.2 (by omega)]; simp_all
        · simp [Memory.read]
      · simp only [Memory.read]
        rw [if_neg (by omega)]; exact ih hm.2

/-- The written cell reads as the byte written. -/
theorem Memory.read_write_self {m : Memory} (hm : m.wf = true) (k : Nat) (v : Byte) : (m.write k v).read k = v :=
  Memory.read_write_self_from v hm

theorem Memory.wfFrom_write {m : Memory} {lo k : Nat} (v : Byte) (hm : Memory.wfFrom lo m = true) (hlo : lo ≤ k)
    (hk : k < 256) : Memory.wfFrom lo (m.write k v) = true := by
  induction m generalizing lo with
  | nil => simp only [Memory.write]; split <;> simp_all [Memory.wfFrom]
  | cons c m ih =>
    obtain ⟨j, w⟩ := c
    have hm' := Memory.wfFrom_cons.mp hm
    simp only [Memory.write]
    split
    · split
      · exact hm
      · rw [Memory.wfFrom_cons, Memory.wfFrom_cons]
        exact ⟨⟨hlo, hk, ‹_›⟩, ⟨by omega, hm'.1.2⟩, hm'.2⟩
    · split
      · split
        · exact Memory.wfFrom_mono (by omega) hm'.2
        · rw [Memory.wfFrom_cons]
          exact ⟨⟨hlo, hk, ‹_›⟩, by simp_all⟩
      · rw [Memory.wfFrom_cons]
        exact ⟨hm'.1, ih hm'.2 (by omega)⟩

/-- A write to a cell keeps the canonical form. -/
theorem Memory.wf_write {m : Memory} (hm : m.wf = true) {k : Nat} (hk : k < 256) (v : Byte) : (m.write k v).wf = true :=
  Memory.wfFrom_write v hm (Nat.zero_le _) hk

/-- A write at the address a byte gives keeps the canonical form. -/
theorem Memory.wf_write_byte {m : Memory} (hm : m.wf = true) (a v : Byte) : (m.write a.toNat v).wf = true :=
  Memory.wf_write hm (by omega) v

/-- Placing an image that fits keeps the canonical form. -/
theorem Memory.wf_place {m : Memory} (hm : m.wf = true) {k : Nat} (bs : List Byte) (h : k + bs.length ≤ 256) :
    (m.place k bs).wf = true := by
  induction bs generalizing m k with
  | nil => exact hm
  | cons b bs ih =>
    simp only [List.length_cons] at h
    exact ih (Memory.wf_write hm (by omega) b) (by omega)

/-- Placing an image leaves the cells below it alone. -/
theorem Memory.read_place_below (m : Memory) {k j : Nat} (bs : List Byte) (h : j < k) : (m.place k bs).read j = m.read j := by
  induction bs generalizing m k with
  | nil => rfl
  | cons b bs ih =>
    simp only [Memory.place]
    rw [ih (m.write k b) (by omega), Memory.read_write_of_ne m b (by omega)]

/-- What a cell reads after an image that fits is placed: the image's byte inside it, the byte before outside it. -/
theorem Memory.read_place {m : Memory} (hm : m.wf = true) {k : Nat} (bs : List Byte) (h : k + bs.length ≤ 256) (j : Nat) :
    (m.place k bs).read j = if k ≤ j ∧ j < k + bs.length then bs.getD (j - k) 0 else m.read j := by
  induction bs generalizing m k with
  | nil => rw [if_neg (by simp)]; rfl
  | cons b bs ih =>
    simp only [List.length_cons] at h ⊢
    simp only [Memory.place]
    rw [ih (Memory.wf_write hm (by omega) b) (by omega)]
    by_cases hj : j = k
    · subst hj; simp [Memory.read_write_self hm]
    · rw [Memory.read_write_of_ne m b hj]
      by_cases h1 : k + 1 ≤ j ∧ j < k + 1 + bs.length
      · rw [if_pos h1, if_pos (by omega), show j - k = (j - (k + 1)) + 1 by omega]; simp
      · rw [if_neg h1, if_neg (by omega)]

theorem Memory.wf_nil : Memory.wf [] = true := rfl

end Sys2Proof.Machine
end

