-- ==== Sys2Proof/Laws/State.lean ====
section
/-! SUPPORT. One lemma per field per update of State, so that no proof unfolds a record update. -/

namespace Sys2Proof.Machine

variable (s : State)

@[simp] theorem State.setReg_mem (i : RegIx) (v : Byte) : (s.setReg i v).mem = s.mem := rfl
@[simp] theorem State.setReg_x (i : RegIx) (v : Byte) : (s.setReg i v).x = s.x.set i v := rfl
@[simp] theorem State.setReg_fl (i : RegIx) (v : Byte) : (s.setReg i v).fl = s.fl := rfl
@[simp] theorem State.setReg_pc (i : RegIx) (v : Byte) : (s.setReg i v).pc = s.pc := rfl
@[simp] theorem State.setReg_run (i : RegIx) (v : Byte) : (s.setReg i v).run = s.run := rfl
@[simp] theorem State.setReg_out (i : RegIx) (v : Byte) : (s.setReg i v).out = s.out := rfl
@[simp] theorem State.setReg_diag (i : RegIx) (v : Byte) : (s.setReg i v).diag = s.diag := rfl
@[simp] theorem State.setReg_params (i : RegIx) (v : Byte) : (s.setReg i v).params = s.params := rfl

@[simp] theorem State.setPc_mem (v : Byte) : (s.setPc v).mem = s.mem := rfl
@[simp] theorem State.setPc_x (v : Byte) : (s.setPc v).x = s.x := rfl
@[simp] theorem State.setPc_fl (v : Byte) : (s.setPc v).fl = s.fl := rfl
@[simp] theorem State.setPc_pc (v : Byte) : (s.setPc v).pc = zext9 v := rfl
@[simp] theorem State.setPc_run (v : Byte) : (s.setPc v).run = s.run := rfl
@[simp] theorem State.setPc_out (v : Byte) : (s.setPc v).out = s.out := rfl
@[simp] theorem State.setPc_diag (v : Byte) : (s.setPc v).diag = s.diag := rfl
@[simp] theorem State.setPc_params (v : Byte) : (s.setPc v).params = s.params := rfl

@[simp] theorem State.setFl_mem (v : Byte) : (s.setFl v).mem = s.mem := rfl
@[simp] theorem State.setFl_x (v : Byte) : (s.setFl v).x = s.x := rfl
@[simp] theorem State.setFl_fl (v : Byte) : (s.setFl v).fl = v := rfl
@[simp] theorem State.setFl_pc (v : Byte) : (s.setFl v).pc = s.pc := rfl
@[simp] theorem State.setFl_run (v : Byte) : (s.setFl v).run = s.run := rfl
@[simp] theorem State.setFl_out (v : Byte) : (s.setFl v).out = s.out := rfl
@[simp] theorem State.setFl_diag (v : Byte) : (s.setFl v).diag = s.diag := rfl
@[simp] theorem State.setFl_params (v : Byte) : (s.setFl v).params = s.params := rfl

@[simp] theorem State.emit_mem (v : Byte) : (s.emit v).mem = s.mem := rfl
@[simp] theorem State.emit_x (v : Byte) : (s.emit v).x = s.x := rfl
@[simp] theorem State.emit_fl (v : Byte) : (s.emit v).fl = s.fl := rfl
@[simp] theorem State.emit_pc (v : Byte) : (s.emit v).pc = s.pc := rfl
@[simp] theorem State.emit_run (v : Byte) : (s.emit v).run = s.run := rfl
@[simp] theorem State.emit_out (v : Byte) : (s.emit v).out = s.out ++ [v] := rfl
@[simp] theorem State.emit_diag (v : Byte) : (s.emit v).diag = s.diag := rfl
@[simp] theorem State.emit_params (v : Byte) : (s.emit v).params = s.params := rfl

@[simp] theorem State.report_mem (op : Byte) : (s.report op).mem = s.mem := rfl
@[simp] theorem State.report_x (op : Byte) : (s.report op).x = s.x := rfl
@[simp] theorem State.report_fl (op : Byte) : (s.report op).fl = s.fl := rfl
@[simp] theorem State.report_pc (op : Byte) : (s.report op).pc = s.pc := rfl
@[simp] theorem State.report_run (op : Byte) : (s.report op).run = s.run := rfl
@[simp] theorem State.report_out (op : Byte) : (s.report op).out = s.out := rfl
@[simp] theorem State.report_diag (op : Byte) : (s.report op).diag = s.diag ++ [⟨s.pc, op⟩] := rfl
@[simp] theorem State.report_params (op : Byte) : (s.report op).params = s.params := rfl

@[simp] theorem State.halt_mem : (s.halt).mem = s.mem := rfl
@[simp] theorem State.halt_x : (s.halt).x = s.x := rfl
@[simp] theorem State.halt_fl : (s.halt).fl = s.fl := rfl
@[simp] theorem State.halt_pc : (s.halt).pc = s.pc := rfl
@[simp] theorem State.halt_run : (s.halt).run = .halted := rfl
@[simp] theorem State.halt_out : (s.halt).out = s.out := rfl
@[simp] theorem State.halt_diag : (s.halt).diag = s.diag := rfl
@[simp] theorem State.halt_params : (s.halt).params = s.params := rfl

@[simp] theorem State.raise_mem (c : Cause) : (s.raise c).mem = s.mem := rfl
@[simp] theorem State.raise_x (c : Cause) : (s.raise c).x = s.x := rfl
@[simp] theorem State.raise_fl (c : Cause) : (s.raise c).fl = s.fl := rfl
@[simp] theorem State.raise_pc (c : Cause) : (s.raise c).pc = s.pc := rfl
@[simp] theorem State.raise_run (c : Cause) : (s.raise c).run = .faulted c s.pc := rfl
@[simp] theorem State.raise_out (c : Cause) : (s.raise c).out = s.out := rfl
@[simp] theorem State.raise_diag (c : Cause) : (s.raise c).diag = s.diag := rfl
@[simp] theorem State.raise_params (c : Cause) : (s.raise c).params = s.params := rfl

@[simp] theorem State.fallThrough_mem : (s.fallThrough).mem = s.mem := rfl
@[simp] theorem State.fallThrough_x : (s.fallThrough).x = s.x := rfl
@[simp] theorem State.fallThrough_fl : (s.fallThrough).fl = s.fl := rfl
@[simp] theorem State.fallThrough_pc : (s.fallThrough).pc = s.pc + 2 := rfl
@[simp] theorem State.fallThrough_run : (s.fallThrough).run = s.run := rfl
@[simp] theorem State.fallThrough_out : (s.fallThrough).out = s.out := rfl
@[simp] theorem State.fallThrough_diag : (s.fallThrough).diag = s.diag := rfl
@[simp] theorem State.fallThrough_params : (s.fallThrough).params = s.params := rfl

@[simp] theorem State.load_mem (image : List Byte) : (s.load image).mem = s.mem.place 0 image := rfl
@[simp] theorem State.load_x (image : List Byte) : (s.load image).x = s.x := rfl
@[simp] theorem State.load_fl (image : List Byte) : (s.load image).fl = s.fl := rfl
@[simp] theorem State.load_pc (image : List Byte) : (s.load image).pc = s.pc := rfl
@[simp] theorem State.load_run (image : List Byte) : (s.load image).run = s.run := rfl
@[simp] theorem State.load_out (image : List Byte) : (s.load image).out = s.out := rfl
@[simp] theorem State.load_diag (image : List Byte) : (s.load image).diag = s.diag := rfl
@[simp] theorem State.load_params (image : List Byte) : (s.load image).params = s.params := rfl

@[simp] theorem State.placeAtPc_mem (bs : List Byte) : (s.placeAtPc bs).mem = s.mem.place s.pc.toNat (bs.take (256 - s.pc.toNat)) := rfl
@[simp] theorem State.placeAtPc_x (bs : List Byte) : (s.placeAtPc bs).x = s.x := rfl
@[simp] theorem State.placeAtPc_fl (bs : List Byte) : (s.placeAtPc bs).fl = s.fl := rfl
@[simp] theorem State.placeAtPc_pc (bs : List Byte) : (s.placeAtPc bs).pc = s.pc := rfl
@[simp] theorem State.placeAtPc_run (bs : List Byte) : (s.placeAtPc bs).run = s.run := rfl
@[simp] theorem State.placeAtPc_out (bs : List Byte) : (s.placeAtPc bs).out = s.out := rfl
@[simp] theorem State.placeAtPc_diag (bs : List Byte) : (s.placeAtPc bs).diag = s.diag := rfl
@[simp] theorem State.placeAtPc_params (bs : List Byte) : (s.placeAtPc bs).params = s.params := rfl

@[simp] theorem State.withPolicy_mem (p : OverflowPolicy) : (s.withPolicy p).mem = s.mem := rfl
@[simp] theorem State.withPolicy_x (p : OverflowPolicy) : (s.withPolicy p).x = s.x := rfl
@[simp] theorem State.withPolicy_fl (p : OverflowPolicy) : (s.withPolicy p).fl = s.fl := rfl
@[simp] theorem State.withPolicy_pc (p : OverflowPolicy) : (s.withPolicy p).pc = s.pc := rfl
@[simp] theorem State.withPolicy_run (p : OverflowPolicy) : (s.withPolicy p).run = s.run := rfl
@[simp] theorem State.withPolicy_out (p : OverflowPolicy) : (s.withPolicy p).out = s.out := rfl
@[simp] theorem State.withPolicy_diag (p : OverflowPolicy) : (s.withPolicy p).diag = s.diag := rfl
@[simp] theorem State.withPolicy_params (p : OverflowPolicy) : (s.withPolicy p).params = { s.params with overflowPolicy := p } := rfl

@[simp] theorem State.advance_mem (op : Byte) : (s.advance op).mem = s.mem := by
  unfold State.advance; split <;> rfl
@[simp] theorem State.advance_x (op : Byte) : (s.advance op).x = s.x := by
  unfold State.advance; split <;> rfl
@[simp] theorem State.advance_fl (op : Byte) : (s.advance op).fl = s.fl := by
  unfold State.advance; split <;> rfl
@[simp] theorem State.advance_pc (op : Byte) :
    (s.advance op).pc = if setsPc op then s.pc else s.pc + BitVec.ofNat 9 (instrLength op) := by
  unfold State.advance; split <;> rfl
@[simp] theorem State.advance_run (op : Byte) : (s.advance op).run = s.run := by
  unfold State.advance; split <;> rfl
@[simp] theorem State.advance_out (op : Byte) : (s.advance op).out = s.out := by
  unfold State.advance; split <;> rfl
@[simp] theorem State.advance_diag (op : Byte) : (s.advance op).diag = s.diag := by
  unfold State.advance; split <;> rfl
@[simp] theorem State.advance_params (op : Byte) : (s.advance op).params = s.params := by
  unfold State.advance; split <;> rfl

@[simp] theorem State.skipUnknown_eq (op : Byte) : s.skipUnknown op = (s.report op).advance op := rfl

/-! Reading a register after an update. -/

@[simp] theorem State.reg_setReg_self (i : RegIx) (v : Byte) : (s.setReg i v).reg i = v := by
  simp [State.reg, State.setReg, Vector.get_eq_getElem]

theorem State.reg_setReg_ne {i j : RegIx} (v : Byte) (h : i ≠ j) : (s.setReg i v).reg j = s.reg j := by
  have h' : i.val ≠ j.val := fun e => h (Fin.ext e)
  simp [State.reg, State.setReg, Vector.get_eq_getElem, h']

theorem State.reg_setReg (i j : RegIx) (v : Byte) : (s.setReg i v).reg j = if i = j then v else s.reg j := by
  by_cases h : i = j
  · subst h; simp
  · simp [h, State.reg_setReg_ne]

/-- A register reads the same in two states with equal register files. -/
theorem State.reg_congr {s t : State} (h : t.x = s.x) (i : RegIx) : t.reg i = s.reg i := by
  unfold State.reg; rw [h]

@[simp] theorem State.reg_advance (op : Byte) (i : RegIx) : (s.advance op).reg i = s.reg i :=
  State.reg_congr (by simp) i
@[simp] theorem State.reg_setPc (v : Byte) (i : RegIx) : (s.setPc v).reg i = s.reg i := rfl
@[simp] theorem State.reg_setFl (v : Byte) (i : RegIx) : (s.setFl v).reg i = s.reg i := rfl
@[simp] theorem State.reg_emit (v : Byte) (i : RegIx) : (s.emit v).reg i = s.reg i := rfl
@[simp] theorem State.reg_report (op : Byte) (i : RegIx) : (s.report op).reg i = s.reg i := rfl
@[simp] theorem State.reg_halt (i : RegIx) : (s.halt).reg i = s.reg i := rfl
@[simp] theorem State.reg_raise (c : Cause) (i : RegIx) : (s.raise c).reg i = s.reg i := rfl
@[simp] theorem State.reg_fallThrough (i : RegIx) : (s.fallThrough).reg i = s.reg i := rfl
@[simp] theorem State.reg_load (image : List Byte) (i : RegIx) : (s.load image).reg i = s.reg i := rfl
@[simp] theorem State.reg_placeAtPc (bs : List Byte) (i : RegIx) : (s.placeAtPc bs).reg i = s.reg i := rfl
@[simp] theorem State.reg_withPolicy (p : OverflowPolicy) (i : RegIx) : (s.withPolicy p).reg i = s.reg i := rfl

end Sys2Proof.Machine
end

