-- ==== Sys2Proof/Laws/Ops.lean ====
section
/-! SUPPORT. For each shared operation, what it can do, said once. -/

namespace Sys2Proof.Machine

/-! ## Fit8 (R171) -/

@[simp] theorem fit8_wrap8 (r : Int) : fit8 .wrap8 r = .ok (BitVec.ofInt 8 r) := rfl

theorem fit8_inRange (p : OverflowPolicy) {r : Int} (h : 0 ≤ r ∧ r ≤ 255) : fit8 p r = .ok (BitVec.ofInt 8 r) := by
  cases p <;> simp [fit8, h]

theorem fit8_outOfRange {r : Int} (h : ¬ (0 ≤ r ∧ r ≤ 255)) : fit8 .faultOverflow r = .error (.overflow r) := by
  simp only [fit8, if_neg h]

/-- A value that Fit8 gives is the result modulo 256, and under FaultOverflow the result was in range. -/
theorem fit8_ok {p : OverflowPolicy} {r : Int} {v : Byte} (h : fit8 p r = .ok v) :
    v = BitVec.ofInt 8 r ∧ (p = .faultOverflow → 0 ≤ r ∧ r ≤ 255) := by
  cases p with
  | wrap8 => exact ⟨by injection h with h; exact h.symm, by simp⟩
  | faultOverflow =>
    simp only [fit8] at h
    split at h
    · exact ⟨by injection h with h; exact h.symm, fun _ => ‹_›⟩
    · cases h

/-- The one fatal condition of Fit8 is Overflow, under FaultOverflow, for a result out of range. -/
theorem fit8_error {p : OverflowPolicy} {r : Int} {c : Cause} (h : fit8 p r = .error c) :
    p = .faultOverflow ∧ c = .overflow r ∧ ¬ (0 ≤ r ∧ r ≤ 255) := by
  cases p with
  | wrap8 => cases h
  | faultOverflow =>
    simp only [fit8] at h
    split at h
    · cases h
    · exact ⟨rfl, by injection h with h; exact h.symm, ‹_›⟩

theorem State.fit8_ok {s : State} {r : Int} {v : Byte} (h : s.fit8 r = .ok v) :
    v = BitVec.ofInt 8 r ∧ (s.params.overflowPolicy = .faultOverflow → 0 ≤ r ∧ r ≤ 255) :=
  Machine.fit8_ok h

theorem State.fit8_error {s : State} {r : Int} {c : Cause} (h : s.fit8 r = .error c) :
    s.params.overflowPolicy = .faultOverflow ∧ c = .overflow r ∧ ¬ (0 ≤ r ∧ r ≤ 255) :=
  Machine.fit8_error h

/-- Fit8 completes under Wrap8 and for every result in range. -/
theorem State.fit8_completes {s : State} {r : Int}
    (h : s.params.overflowPolicy = .wrap8 ∨ (0 ≤ r ∧ r ≤ 255)) : s.fit8 r = .ok (BitVec.ofInt 8 r) := by
  unfold State.fit8
  rcases h with h | h
  · rw [h]; rfl
  · exact fit8_inRange _ h

theorem State.fit8_overflows {s : State} {r : Int} (hp : s.params.overflowPolicy = .faultOverflow)
    (h : ¬ (0 ≤ r ∧ r ≤ 255)) : s.fit8 r = .error (.overflow r) := by
  unfold State.fit8; rw [hp]; exact fit8_outOfRange h

/-! ## Memory accesses at a byte address never leave memory (R53) -/

@[simp] theorem State.memRead_byte (s : State) (a : Byte) : s.memRead a.toNat = .ok (s.mem.read a.toNat) := by
  unfold State.memRead; rw [if_pos (by omega)]

@[simp] theorem State.memWrite_byte (s : State) (a v : Byte) :
    s.memWrite a.toNat v = .ok { s with mem := s.mem.write a.toNat v } := by
  unfold State.memWrite; rw [if_pos (by omega)]

/-! ## SP (R139) -/

theorem ofInt_pred (b : Byte) : BitVec.ofInt 8 ((b.toNat : Int) - 1) = b - 1 := by
  apply BitVec.eq_of_toNat_eq; simp [BitVec.toNat_sub]; omega

theorem ofInt_succ (b : Byte) : BitVec.ofInt 8 ((b.toNat : Int) + 1) = b + 1 := by
  apply BitVec.eq_of_toNat_eq; simp; omega

theorem State.decSp_ok {s t : State} (h : s.decSp = .ok t) :
    t = s.setReg spIx (s.reg spIx - 1) ∧ (s.params.overflowPolicy = .faultOverflow → s.reg spIx ≠ 0) := by
  unfold State.decSp at h
  split at h
  · cases h
  · rename_i v hv
    obtain ⟨rfl, hr⟩ := State.fit8_ok hv
    injection h with h
    refine ⟨by rw [← h, ofInt_pred], fun hp h0 => ?_⟩
    have := hr hp
    rw [h0] at this; simp at this

theorem State.decSp_error {s : State} {c : Cause} (h : s.decSp = .error c) :
    s.params.overflowPolicy = .faultOverflow ∧ s.reg spIx = 0 ∧ c = .overflow (-1) := by
  unfold State.decSp at h
  split at h
  · rename_i c' hc
    obtain ⟨hp, rfl, hr⟩ := State.fit8_error hc
    have h0 : s.reg spIx = 0 := by apply BitVec.eq_of_toNat_eq; simp; omega
    injection h with h
    refine ⟨hp, h0, ?_⟩
    rw [← h, h0]; rfl
  · cases h

theorem State.decSp_completes {s : State} (h : s.params.overflowPolicy = .wrap8 ∨ s.reg spIx ≠ 0) :
    s.decSp = .ok (s.setReg spIx (s.reg spIx - 1)) := by
  cases hd : s.decSp with
  | ok t => rw [(State.decSp_ok hd).1]
  | error c =>
    obtain ⟨hp, h0, -⟩ := State.decSp_error hd
    simp_all

theorem State.incSp_ok {s t : State} (h : s.incSp = .ok t) :
    t = s.setReg spIx (s.reg spIx + 1) ∧ (s.params.overflowPolicy = .faultOverflow → s.reg spIx ≠ 255) := by
  unfold State.incSp at h
  split at h
  · cases h
  · rename_i v hv
    obtain ⟨rfl, hr⟩ := State.fit8_ok hv
    injection h with h
    refine ⟨by rw [← h, ofInt_succ], fun hp h0 => ?_⟩
    have := hr hp
    rw [h0] at this; simp at this

theorem State.incSp_error {s : State} {c : Cause} (h : s.incSp = .error c) :
    s.params.overflowPolicy = .faultOverflow ∧ s.reg spIx = 255 ∧ c = .overflow 256 := by
  unfold State.incSp at h
  split at h
  · rename_i c' hc
    obtain ⟨hp, rfl, hr⟩ := State.fit8_error hc
    have h0 : s.reg spIx = 255 := by apply BitVec.eq_of_toNat_eq; simp; omega
    injection h with h
    refine ⟨hp, h0, ?_⟩
    rw [← h, h0]; rfl
  · cases h

theorem State.incSp_completes {s : State} (h : s.params.overflowPolicy = .wrap8 ∨ s.reg spIx ≠ 255) :
    s.incSp = .ok (s.setReg spIx (s.reg spIx + 1)) := by
  cases hd : s.incSp with
  | ok t => rw [(State.incSp_ok hd).1]
  | error c =>
    obtain ⟨hp, h0, -⟩ := State.incSp_error hd
    simp_all

/-! ## Push and pop -/

/-- The state a push leaves: SP decremented, and the value, computed after that, at SP. -/
def State.pushed (s : State) (value : State → Byte) : State :=
  let t := s.setReg spIx (s.reg spIx - 1)
  { t with mem := s.mem.write (s.reg spIx - 1).toNat (value t) }

@[simp] theorem State.pushed_x (s : State) (f : State → Byte) :
    (s.pushed f).x = (s.setReg spIx (s.reg spIx - 1)).x := rfl
@[simp] theorem State.pushed_mem (s : State) (f : State → Byte) :
    (s.pushed f).mem = s.mem.write (s.reg spIx - 1).toNat (f (s.setReg spIx (s.reg spIx - 1))) := rfl
@[simp] theorem State.pushed_fl (s : State) (f : State → Byte) : (s.pushed f).fl = s.fl := rfl
@[simp] theorem State.pushed_pc (s : State) (f : State → Byte) : (s.pushed f).pc = s.pc := rfl
@[simp] theorem State.pushed_run (s : State) (f : State → Byte) : (s.pushed f).run = s.run := rfl
@[simp] theorem State.pushed_out (s : State) (f : State → Byte) : (s.pushed f).out = s.out := rfl
@[simp] theorem State.pushed_diag (s : State) (f : State → Byte) : (s.pushed f).diag = s.diag := rfl
@[simp] theorem State.pushed_params (s : State) (f : State → Byte) : (s.pushed f).params = s.params := rfl
@[simp] theorem State.pushed_reg (s : State) (f : State → Byte) (i : RegIx) :
    (s.pushed f).reg i = (s.setReg spIx (s.reg spIx - 1)).reg i := rfl

theorem State.pushByte_ok {s t : State} {f : State → Byte} (h : s.pushByte f = .ok t) :
    t = s.pushed f ∧ (s.params.overflowPolicy = .faultOverflow → s.reg spIx ≠ 0) := by
  unfold State.pushByte at h
  split at h
  · cases h
  · rename_i u hu
    obtain ⟨rfl, hp⟩ := State.decSp_ok hu
    rw [State.memWrite_byte] at h
    injection h with h
    exact ⟨by rw [← h]; simp [State.pushed], hp⟩

theorem State.pushByte_error {s : State} {f : State → Byte} {c : Cause} (h : s.pushByte f = .error c) :
    s.params.overflowPolicy = .faultOverflow ∧ s.reg spIx = 0 ∧ c = .overflow (-1) := by
  unfold State.pushByte at h
  split at h
  · rename_i c' hc
    injection h with h
    exact h ▸ State.decSp_error hc
  · rw [State.memWrite_byte] at h; cases h

theorem State.pushByte_completes {s : State} {f : State → Byte}
    (h : s.params.overflowPolicy = .wrap8 ∨ s.reg spIx ≠ 0) : s.pushByte f = .ok (s.pushed f) := by
  cases hd : s.pushByte f with
  | ok t => rw [(State.pushByte_ok hd).1]
  | error c =>
    obtain ⟨hp, h0, -⟩ := State.pushByte_error hd
    simp_all

/-- A pop delivers the byte at SP and then increments SP. -/
theorem State.popByte_eq (s : State) (d : Byte → State → State) :
    s.popByte d = (d (s.mem.read (s.reg spIx).toNat) s).incSp := by
  simp [State.popByte]

/-! ## Operands (R108) -/

theorem toNat_ofNat_regIx (i : RegIx) : (BitVec.ofNat 8 i.val).toNat = i.val := by
  simp; omega

@[simp] theorem regIndex_ofNat (i : RegIx) : regIndex (BitVec.ofNat 8 i.val) = .ok i := by
  have h := toNat_ofNat_regIx i
  unfold regIndex
  rw [dif_pos (by omega)]
  exact congrArg _ (Fin.ext h)

theorem regIndex_bad {a : Byte} (h : 7 < a.toNat) : regIndex a = .error (.outOfBoundsRegister a) := by
  unfold regIndex; rw [dif_neg (by omega)]

/-- An operand byte either is above 7, or is the byte of a register. -/
theorem regByte_cases (a : Byte) : 7 < a.toNat ∨ ∃ i : RegIx, a = BitVec.ofNat 8 i.val := by
  by_cases h : a.toNat < 8
  · exact .inr ⟨⟨a.toNat, h⟩, by simp⟩
  · exact .inl (by omega)

@[simp] theorem withReg_ofNat (i : RegIx) (k : RegIx → Except Cause State) : withReg (BitVec.ofNat 8 i.val) k = k i := by
  simp [withReg]

theorem withReg_bad {a : Byte} (h : 7 < a.toNat) (k : RegIx → Except Cause State) :
    withReg a k = .error (.outOfBoundsRegister a) := by
  simp [withReg, regIndex_bad h]

/-- Everything a one-register form can do. -/
theorem withReg_cases (a : Byte) (k : RegIx → Except Cause State) :
    (7 < a.toNat ∧ withReg a k = .error (.outOfBoundsRegister a)) ∨
    (∃ i : RegIx, a = BitVec.ofNat 8 i.val ∧ withReg a k = k i) := by
  rcases regByte_cases a with h | ⟨i, rfl⟩
  · exact .inl ⟨h, withReg_bad h k⟩
  · exact .inr ⟨i, rfl, withReg_ofNat i k⟩

@[simp] theorem withRegs_ofNat (i j : RegIx) (k : RegIx → RegIx → Except Cause State) :
    withRegs (BitVec.ofNat 8 i.val) (BitVec.ofNat 8 j.val) k = k i j := by
  simp [withRegs]

theorem withRegs_bad_a {a : Byte} (h : 7 < a.toNat) (b : Byte) (k : RegIx → RegIx → Except Cause State) :
    withRegs a b k = .error (.outOfBoundsRegister a) := withReg_bad h _

theorem withRegs_bad_b (i : RegIx) {b : Byte} (h : 7 < b.toNat) (k : RegIx → RegIx → Except Cause State) :
    withRegs (BitVec.ofNat 8 i.val) b k = .error (.outOfBoundsRegister b) := by
  simp [withRegs, withReg_bad h]

/-- Everything a two-register form can do. -/
theorem withRegs_cases (a b : Byte) (k : RegIx → RegIx → Except Cause State) :
    (7 < a.toNat ∧ withRegs a b k = .error (.outOfBoundsRegister a)) ∨
    (a.toNat ≤ 7 ∧ 7 < b.toNat ∧ withRegs a b k = .error (.outOfBoundsRegister b)) ∨
    (∃ i j : RegIx, a = BitVec.ofNat 8 i.val ∧ b = BitVec.ofNat 8 j.val ∧ withRegs a b k = k i j) := by
  rcases regByte_cases a with h | ⟨i, rfl⟩
  · exact .inl ⟨h, withRegs_bad_a h b k⟩
  · rcases regByte_cases b with h | ⟨j, rfl⟩
    · exact .inr (.inl ⟨by rw [toNat_ofNat_regIx]; omega, h, withRegs_bad_b i h k⟩)
    · exact .inr (.inr ⟨i, j, rfl, rfl, withRegs_ofNat i j k⟩)

theorem alu2_bad_a {a : Byte} (s : State) (h : 7 < a.toNat) (b : Byte) (f : Byte → Byte → Except Cause Byte) :
    alu2 s a b f = .error (.outOfBoundsRegister a) := withRegs_bad_a h b _

theorem alu2_bad_b (s : State) (i : RegIx) {b : Byte} (h : 7 < b.toNat) (f : Byte → Byte → Except Cause Byte) :
    alu2 s (BitVec.ofNat 8 i.val) b f = .error (.outOfBoundsRegister b) := withRegs_bad_b i h _

theorem alu2_value (s : State) (i j : RegIx) {f : Byte → Byte → Except Cause Byte} {v : Byte}
    (h : f (s.reg i) (s.reg j) = .ok v) :
    alu2 s (BitVec.ofNat 8 i.val) (BitVec.ofNat 8 j.val) f = .ok (s.setReg i v) := by
  simp [alu2, h]

theorem alu2_fatal (s : State) (i j : RegIx) {f : Byte → Byte → Except Cause Byte} {c : Cause}
    (h : f (s.reg i) (s.reg j) = .error c) :
    alu2 s (BitVec.ofNat 8 i.val) (BitVec.ofNat 8 j.val) f = .error c := by
  simp [alu2, h]

theorem alu1_bad {a : Byte} (s : State) (h : 7 < a.toNat) (f : Byte → Except Cause Byte) :
    alu1 s a f = .error (.outOfBoundsRegister a) := withReg_bad h _

theorem alu1_value (s : State) (i : RegIx) {f : Byte → Except Cause Byte} {v : Byte} (h : f (s.reg i) = .ok v) :
    alu1 s (BitVec.ofNat 8 i.val) f = .ok (s.setReg i v) := by
  simp [alu1, h]

theorem alu1_fatal (s : State) (i : RegIx) {f : Byte → Except Cause Byte} {c : Cause} (h : f (s.reg i) = .error c) :
    alu1 s (BitVec.ofNat 8 i.val) f = .error c := by
  simp [alu1, h]

/-- What a two-register ALU form leaves when it completes: one register written. -/
theorem alu2_ok {s t : State} {a b : Byte} {f : Byte → Byte → Except Cause Byte} (h : alu2 s a b f = .ok t) :
    ∃ i j : RegIx, ∃ v, a = BitVec.ofNat 8 i.val ∧ b = BitVec.ofNat 8 j.val ∧ f (s.reg i) (s.reg j) = .ok v ∧
      t = s.setReg i v := by
  unfold alu2 at h
  rcases withRegs_cases a b _ with ⟨-, e⟩ | ⟨-, -, e⟩ | ⟨i, j, ha, hb, e⟩ <;> rw [e] at h
  · cases h
  · cases h
  · split at h
    · cases h
    · rename_i v hv
      injection h with h
      exact ⟨i, j, v, ha, hb, hv, h.symm⟩

/-- What a one-register ALU form leaves when it completes: one register written. -/
theorem alu1_ok {s t : State} {a : Byte} {f : Byte → Except Cause Byte} (h : alu1 s a f = .ok t) :
    ∃ i : RegIx, ∃ v, a = BitVec.ofNat 8 i.val ∧ f (s.reg i) = .ok v ∧ t = s.setReg i v := by
  unfold alu1 at h
  rcases withReg_cases a _ with ⟨-, e⟩ | ⟨i, ha, e⟩ <;> rw [e] at h
  · cases h
  · split at h
    · cases h
    · rename_i v hv
      injection h with h
      exact ⟨i, v, ha, hv, h.symm⟩

/-! ## The end of a step (R106) -/

@[simp] theorem State.conclude_error (s : State) (op : Byte) (c : Cause) : s.conclude op (.error c) = .next (s.raise c) := rfl

theorem State.conclude_running {s t : State} (op : Byte) (h : t.run = .running) :
    s.conclude op (.ok t) = .next (t.advance op) := by
  simp [State.conclude, h]

theorem State.conclude_ended {s t : State} (op : Byte) (h : t.run ≠ .running) : s.conclude op (.ok t) = .next t := by
  simp [State.conclude, h]

/-- A step that reaches its handler has a next state. -/
theorem State.conclude_next (s : State) (op : Byte) (r : Except Cause State) : ∃ t, s.conclude op r = .next t := by
  cases r with
  | error c => exact ⟨_, rfl⟩
  | ok t => unfold State.conclude; dsimp only; split <;> exact ⟨_, rfl⟩

/-- Everything the end of a step can do. -/
theorem State.conclude_cases {s t : State} {op : Byte} {r : Except Cause State} (h : s.conclude op r = .next t) :
    (∃ c, r = .error c ∧ t = s.raise c) ∨
    (∃ u, r = .ok u ∧ u.run = .running ∧ t = u.advance op) ∨
    (∃ u, r = .ok u ∧ u.run ≠ .running ∧ t = u) := by
  cases r with
  | error c => injection h with h; exact .inl ⟨c, rfl, h.symm⟩
  | ok u =>
    unfold State.conclude at h
    dsimp only at h
    split at h <;> injection h with h
    · exact .inr (.inl ⟨u, rfl, ‹_›, h.symm⟩)
    · exact .inr (.inr ⟨u, rfl, ‹_›, h.symm⟩)

/-! ## Fetch (R56) -/

theorem State.fetch_outOfBounds {s : State} (h : 253 < s.pc.toNat) : s.fetch = .error .outOfBoundsFetch := by
  unfold State.fetch; rw [if_pos (by omega)]

theorem State.fetch_window {s : State} (h : s.pc.toNat ≤ 253) :
    s.fetch = .ok ⟨s.mem.read s.pc.toNat, s.mem.read (s.pc.toNat + 1), s.mem.read (s.pc.toNat + 2)⟩ := by
  unfold State.fetch; rw [if_neg (by omega)]

end Sys2Proof.Machine
end

