-- ==== Sys2Proof/Laws/Exec.lean ====
section
/-! SUPPORT. Every meaning as one handler followed by the end of the step, and everything a handler and a step can do. -/

namespace Sys2Proof.Machine

/-- The handler of each instruction, with its register checks: the part of its meaning before the end of the step. -/
def handler (i : Instr) (s : State) : Except Cause State :=
  match i with
  | .hlt => .ok s.halt
  | .ret => s.popByte fun v t => t.setPc v
  | .push a => withReg a fun i => s.pushByte fun t => t.reg i
  | .pop a => withReg a fun i => s.popByte fun v t => t.setReg i v
  | .prn a => withReg a fun i => .ok (s.emit (s.reg i))
  | .call a => withReg a fun i =>
      match s.pushByte fun _ => s.returnAddress with
      | .error c => .error c
      | .ok t => .ok (t.setPc (t.reg i))
  | .jmp a => withReg a fun i => .ok (s.setPc (s.reg i))
  | .jeq a => withReg a fun i => .ok (if s.equalFlag then s.setPc (s.reg i) else s.fallThrough)
  | .jne a => withReg a fun i => .ok (if s.equalFlag then s.fallThrough else s.setPc (s.reg i))
  | .inc a => alu1 s a fun A => s.fit8 (A.toNat + 1)
  | .dec a => alu1 s a fun A => s.fit8 (A.toNat - 1)
  | .not a => alu1 s a fun A => s.fit8 (-A.toNat - 1)
  | .ldi a b => withReg a fun i => .ok (s.setReg i b)
  | .add a b => alu2 s a b fun A B => s.fit8 (A.toNat + B.toNat)
  | .sub a b => alu2 s a b fun A B => s.fit8 (A.toNat - B.toNat)
  | .mul a b => alu2 s a b fun A B => s.fit8 (A.toNat * B.toNat)
  | .div a b => alu2 s a b fun A B =>
      if B = 0 then .error .divisionByZero else .ok (BitVec.ofNat 8 (A.toNat / B.toNat))
  | .mod a b => alu2 s a b fun A B =>
      if B = 0 then .error .divisionByZero else .ok (BitVec.ofNat 8 (A.toNat % B.toNat))
  | .cmp a b => withRegs a b fun i j => .ok (s.setFl (cmpFlags (s.reg i) (s.reg j)))
  | .and a b => alu2 s a b fun A B => .ok (A &&& B)
  | .or a b => alu2 s a b fun A B => .ok (A ||| B)
  | .xor a b => alu2 s a b fun A B => .ok (A ^^^ B)
  | .shl a b => alu2 s a b fun A B => s.fit8 ((A.toNat * 2 ^ B.toNat : Nat) : Int)
  | .shr a b => alu2 s a b fun A B => .ok (BitVec.ofNat 8 (A.toNat / 2 ^ B.toNat))

/-- A meaning is its handler followed by the end of the step for its opcode byte. -/
theorem exec_eq_conclude (i : Instr) (s : State) :
    exec i s = s.conclude (opcode s.params.opcodeMap i) (handler i s) := by
  cases i <;> rfl

/-- Every instruction has a next state from every state. -/
theorem exec_next (i : Instr) (s : State) : ∃ t, exec i s = .next t := by
  rw [exec_eq_conclude]; exact s.conclude_next _ _

/-- An instruction whose handler takes a fatal condition. -/
theorem exec_fatal {i : Instr} {s : State} {c : Cause} (h : handler i s = .error c) : exec i s = .next (s.raise c) := by
  rw [exec_eq_conclude, h, State.conclude_error]

/-- An instruction whose handler completes with the run going on. -/
theorem exec_completes {i : Instr} {s t : State} (h : handler i s = .ok t) (hr : t.run = .running) :
    exec i s = .next (t.advance (opcode s.params.opcodeMap i)) := by
  rw [exec_eq_conclude, h, State.conclude_running _ hr]

/-- The default advance of an instruction whose length R77 fixes. -/
theorem advance_opcode {m : OpcodeMap} (hm : m.valid = true) {i : Instr} (hp : i.setsPc = false)
    (hl : i.lengthOpen = false) (t : State) :
    t.advance (opcode m i) = { t with pc := t.pc + BitVec.ofNat 9 (i.operands.length + 1) } := by
  simp [State.advance, setsPc_opcode hm, hp, instrLength, operandCount_opcode hm hl]

/-- The default advance of INC, DEC and NOT, by the map's own bits 7:6. -/
theorem advance_opcode_open {m : OpcodeMap} (hm : m.valid = true) {i : Instr} (hp : i.setsPc = false) (t : State) :
    t.advance (opcode m i) = { t with pc := t.pc + BitVec.ofNat 9 (operandCount (opcode m i) + 1) } := by
  simp [State.advance, setsPc_opcode hm, hp, instrLength]

/-- An instruction that sets the pc is not advanced. -/
theorem advance_opcode_setsPc {m : OpcodeMap} (hm : m.valid = true) {i : Instr} (hp : i.setsPc = true) (t : State) :
    t.advance (opcode m i) = t := by
  simp [State.advance, setsPc_opcode hm, hp]

/-- The shapes a completed handler leaves its state in. -/
inductive Shape (s : State) : Instr → State → Prop where
  | halted : Shape s .hlt s.halt
  | regWritten (i : Instr) (r : RegIx) (v : Byte) (hr : i.operands.head? = some (BitVec.ofNat 8 r.val))
      (hi : i.setsPc = false) (hs : ∀ a, i ≠ .pop a) : Shape s i (s.setReg r v)
  | emitted (r : RegIx) : Shape s (.prn (BitVec.ofNat 8 r.val)) (s.emit (s.reg r))
  | compared (r q : RegIx) :
      Shape s (.cmp (BitVec.ofNat 8 r.val) (BitVec.ofNat 8 q.val)) (s.setFl (cmpFlags (s.reg r) (s.reg q)))
  | pushed (r : RegIx) : Shape s (.push (BitVec.ofNat 8 r.val)) (s.pushed fun t => t.reg r)
  | called (r : RegIx) : Shape s (.call (BitVec.ofNat 8 r.val))
      ((s.pushed fun _ => s.returnAddress).setPc ((s.setReg spIx (s.reg spIx - 1)).reg r))
  | popped (r : RegIx) : Shape s (.pop (BitVec.ofNat 8 r.val))
      ((s.setReg r (s.mem.read (s.reg spIx).toNat)).setReg spIx
        ((s.setReg r (s.mem.read (s.reg spIx).toNat)).reg spIx + 1))
  | returned : Shape s .ret ((s.setPc (s.mem.read (s.reg spIx).toNat)).setReg spIx (s.reg spIx + 1))
  | jumped (i : Instr) (v : Byte) (hi : i.setsPc = true) : Shape s i (s.setPc v)
  | fellThrough (i : Instr) (hi : i.setsPc = true) : Shape s i s.fallThrough

theorem withReg_ok {a : Byte} {k : RegIx → Except Cause State} {t : State} (h : withReg a k = .ok t) :
    ∃ i : RegIx, a = BitVec.ofNat 8 i.val ∧ k i = .ok t := by
  rcases withReg_cases a k with ⟨-, e⟩ | ⟨i, ha, e⟩ <;> rw [e] at h
  · cases h
  · exact ⟨i, ha, h⟩

theorem withRegs_ok {a b : Byte} {k : RegIx → RegIx → Except Cause State} {t : State} (h : withRegs a b k = .ok t) :
    ∃ i j : RegIx, a = BitVec.ofNat 8 i.val ∧ b = BitVec.ofNat 8 j.val ∧ k i j = .ok t := by
  rcases withRegs_cases a b k with ⟨-, e⟩ | ⟨-, -, e⟩ | ⟨i, j, ha, hb, e⟩ <;> rw [e] at h
  · cases h
  · cases h
  · exact ⟨i, j, ha, hb, h⟩

/-- Everything a handler that completes can do. -/
theorem handler_shape {i : Instr} {s t : State} (h : handler i s = .ok t) : Shape s i t := by
  cases i <;> simp only [handler] at h
  case hlt => injection h with h; subst h; exact .halted
  case ret =>
    rw [State.popByte_eq] at h
    obtain ⟨rfl, -⟩ := State.incSp_ok h
    exact .returned
  case push a =>
    replace h := withReg_ok h
    obtain ⟨r, rfl, h⟩ := h
    obtain ⟨rfl, -⟩ := State.pushByte_ok h
    exact .pushed r
  case pop a =>
    replace h := withReg_ok h
    obtain ⟨r, rfl, h⟩ := h
    rw [State.popByte_eq] at h
    obtain ⟨rfl, -⟩ := State.incSp_ok h
    exact .popped r
  case prn a =>
    replace h := withReg_ok h
    obtain ⟨r, rfl, h⟩ := h
    injection h with h; subst h; exact .emitted r
  case call a =>
    replace h := withReg_ok h
    obtain ⟨r, rfl, h⟩ := h
    split at h
    · cases h
    · rename_i u hu
      obtain ⟨rfl, -⟩ := State.pushByte_ok hu
      injection h with h; subst h; exact .called r
  case jmp a =>
    replace h := withReg_ok h
    obtain ⟨r, rfl, h⟩ := h
    injection h with h; subst h; exact .jumped _ _ rfl
  case jeq a =>
    replace h := withReg_ok h
    obtain ⟨r, rfl, h⟩ := h
    injection h with h
    subst h
    split
    · exact .jumped _ _ rfl
    · exact .fellThrough _ rfl
  case jne a =>
    replace h := withReg_ok h
    obtain ⟨r, rfl, h⟩ := h
    injection h with h
    subst h
    split
    · exact .fellThrough _ rfl
    · exact .jumped _ _ rfl
  case ldi a b =>
    replace h := withReg_ok h
    obtain ⟨r, rfl, h⟩ := h
    injection h with h; subst h; exact .regWritten _ r b rfl rfl (by simp)
  case cmp a b =>
    replace h := withRegs_ok h
    obtain ⟨r, q, rfl, rfl, h⟩ := h
    injection h with h; subst h; exact .compared r q
  case inc | dec | not =>
    obtain ⟨r, v, rfl, -, rfl⟩ := alu1_ok h
    exact .regWritten _ r v rfl rfl (by simp)
  all_goals
    obtain ⟨r, q, v, rfl, rfl, -, rfl⟩ := alu2_ok h
    exact .regWritten _ r v rfl rfl (by simp)

/-- Everything `exec` can do from a Running state: take a fatal condition, or complete in one of the handler's shapes, with the
default advance unless the run has ended. -/
theorem exec_cases {i : Instr} {s t : State} (h : exec i s = .next t) :
    (∃ c, handler i s = .error c ∧ t = s.raise c) ∨
    (∃ u, Shape s i u ∧ handler i s = .ok u ∧ u.run = .running ∧ t = u.advance (opcode s.params.opcodeMap i)) ∨
    (∃ u, Shape s i u ∧ handler i s = .ok u ∧ u.run ≠ .running ∧ t = u) := by
  rw [exec_eq_conclude] at h
  rcases State.conclude_cases h with h | ⟨u, hu, h⟩ | ⟨u, hu, h⟩
  · exact .inl h
  · exact .inr (.inl ⟨u, handler_shape hu, hu, h⟩)
  · exact .inr (.inr ⟨u, handler_shape hu, hu, h⟩)

/-- A step whose fetch window is in memory does what the fetched bytes decode to (R56, R106). -/
theorem step_window {s : State} (hr : s.run = .running) (h : s.pc.toNat ≤ 253) :
    step s = execDecoded (decode s.params.opcodeMap (s.mem.read s.pc.toNat) (s.mem.read (s.pc.toNat + 1))
      (s.mem.read (s.pc.toNat + 2))) s := by
  unfold step; rw [hr]; simp only [stepRunning, State.fetch_window h]; rfl

/-- Everything a step can do. -/
theorem step_cases {s t : State} (h : step s = .next t) :
    s.run = .running ∧
    ((253 < s.pc.toNat ∧ t = s.raise .outOfBoundsFetch) ∨
     (s.pc.toNat ≤ 253 ∧
      ((∃ i, decode s.params.opcodeMap (s.mem.read s.pc.toNat) (s.mem.read (s.pc.toNat + 1))
            (s.mem.read (s.pc.toNat + 2)) = .instr i ∧ exec i s = .next t) ∨
       (∃ op, decode s.params.opcodeMap (s.mem.read s.pc.toNat) (s.mem.read (s.pc.toNat + 1))
            (s.mem.read (s.pc.toNat + 2)) = .unknownOpcode op ∧ t = (s.report op).advance op) ∨
       (∃ op, decode s.params.opcodeMap (s.mem.read s.pc.toNat) (s.mem.read (s.pc.toNat + 1))
            (s.mem.read (s.pc.toNat + 2)) = .unsupportedAlu op ∧ t = s.raise (.unsupportedAluOperation op))))) := by
  unfold step at h
  split at h
  · refine ⟨‹_›, ?_⟩
    unfold stepRunning at h
    by_cases hp : s.pc.toNat ≤ 253
    · rw [State.fetch_window hp] at h
      refine .inr ⟨hp, ?_⟩
      simp only [State.decodeWindow, execDecoded] at h
      split at h <;> rename_i hd
      · exact .inl ⟨_, hd, h⟩
      · injection h with h; exact .inr (.inl ⟨_, hd, h.symm⟩)
      · injection h with h; exact .inr (.inr ⟨_, hd, h.symm⟩)
    · rw [State.fetch_outOfBounds (by omega)] at h
      injection h with h
      exact .inl ⟨by omega, h.symm⟩
  · cases h
  · cases h

end Sys2Proof.Machine
end

