-- ==== Sys2Proof/Laws/PerInstr.lean ====
section
/-! SUPPORT. One statement about every instruction as syntax: the bits R77 gives its opcode byte under any valid map. -/

namespace Sys2Proof.Laws.OpcodeBits

/-- Bits 5 and 4 of the opcode byte are the instruction's ALU class and whether it sets the pc; bits 7:6 cover the operand
bytes it uses, and are their number but for INC, DEC and NOT, where they may be 1 or 2 (R77, C1). -/
def Statement (i : Instr) : Prop :=
  ∀ m : OpcodeMap, m.valid = true →
    isAlu (opcode m i) = i.aluClass ∧ setsPc (opcode m i) = i.setsPc ∧
    (i.lengthOpen = false → operandCount (opcode m i) = i.operands.length) ∧
    (i.lengthOpen = true → operandCount (opcode m i) = 1 ∨ operandCount (opcode m i) = 2)

theorem all (i : Instr) : Statement i := fun _ hm =>
  ⟨isAlu_opcode hm i, setsPc_opcode hm i, operandCount_opcode hm, operandCount_opcode_open hm⟩

theorem hlt : Statement .hlt := all _
theorem ret : Statement .ret := all _
theorem push (a : Byte) : Statement (.push a) := all _
theorem pop (a : Byte) : Statement (.pop a) := all _
theorem prn (a : Byte) : Statement (.prn a) := all _
theorem call (a : Byte) : Statement (.call a) := all _
theorem jmp (a : Byte) : Statement (.jmp a) := all _
theorem jeq (a : Byte) : Statement (.jeq a) := all _
theorem jne (a : Byte) : Statement (.jne a) := all _
theorem inc (a : Byte) : Statement (.inc a) := all _
theorem dec (a : Byte) : Statement (.dec a) := all _
theorem not (a : Byte) : Statement (.not a) := all _
theorem ldi (a b : Byte) : Statement (.ldi a b) := all _
theorem add (a b : Byte) : Statement (.add a b) := all _
theorem sub (a b : Byte) : Statement (.sub a b) := all _
theorem mul (a b : Byte) : Statement (.mul a b) := all _
theorem div (a b : Byte) : Statement (.div a b) := all _
theorem mod (a b : Byte) : Statement (.mod a b) := all _
theorem cmp (a b : Byte) : Statement (.cmp a b) := all _
theorem and (a b : Byte) : Statement (.and a b) := all _
theorem or (a b : Byte) : Statement (.or a b) := all _
theorem xor (a b : Byte) : Statement (.xor a b) := all _
theorem shl (a b : Byte) : Statement (.shl a b) := all _
theorem shr (a b : Byte) : Statement (.shr a b) := all _

end Sys2Proof.Laws.OpcodeBits
end

