-- ==== Sys2Proof/Laws/Relate.lean ====
section
/-! SUPPORT. Handlers and the end of a step in two related states: what the noninterference and refinement proofs share. -/

namespace Sys2Proof.Machine

/-- A function of the state carried through a handler's answer. -/
def mapOk (g : State → State) : Except Cause State → Except Cause State
  | .error c => .error c
  | .ok u => .ok (g u)

theorem withReg_map (g : State → State) (a : Byte) {k k' : RegIx → Except Cause State} (h : ∀ i, k' i = mapOk g (k i)) :
    withReg a k' = mapOk g (withReg a k) := by
  rcases regByte_cases a with h' | ⟨i, rfl⟩
  · rw [withReg_bad h', withReg_bad h']; rfl
  · simp [h]

theorem withRegs_map (g : State → State) (a b : Byte) {k k' : RegIx → RegIx → Except Cause State}
    (h : ∀ i j, k' i j = mapOk g (k i j)) : withRegs a b k' = mapOk g (withRegs a b k) :=
  withReg_map g a fun i => withReg_map g b fun j => h i j

/-- A relation between answers that holds of equal errors and of the two bodies holds of the two checked handlers. -/
theorem withReg_rel (R : Except Cause State → Except Cause State → Prop) (hbad : ∀ c, R (.error c) (.error c)) (a : Byte)
    {k k' : RegIx → Except Cause State} (h : ∀ i, R (k i) (k' i)) : R (withReg a k) (withReg a k') := by
  rcases regByte_cases a with h' | ⟨i, rfl⟩
  · rw [withReg_bad h', withReg_bad h']; exact hbad _
  · simp [h]

theorem alu2_map (g : State → State) (s s' : State) (a b : Byte) (F : Byte → Byte → Except Cause Byte)
    (hx : ∀ i, s'.reg i = s.reg i) (hg : ∀ i v, s'.setReg i v = g (s.setReg i v)) :
    alu2 s' a b F = mapOk g (alu2 s a b F) := by
  refine withRegs_map g a b fun i j => ?_
  rw [hx, hx]; cases F (s.reg i) (s.reg j) <;> simp [mapOk, hg]

theorem alu1_map (g : State → State) (s s' : State) (a : Byte) (F : Byte → Except Cause Byte)
    (hx : ∀ i, s'.reg i = s.reg i) (hg : ∀ i v, s'.setReg i v = g (s.setReg i v)) :
    alu1 s' a F = mapOk g (alu1 s a F) := by
  refine withReg_map g a fun i => ?_
  rw [hx]; cases F (s.reg i) <;> simp [mapOk, hg]

theorem incSp_map (g : State → State) (s s' : State) (hp : s'.params = s.params) (hx : s'.reg spIx = s.reg spIx)
    (hg : ∀ v, s'.setReg spIx v = g (s.setReg spIx v)) : s'.incSp = mapOk g s.incSp := by
  unfold State.incSp State.fit8; rw [hp, hx]
  cases fit8 s.params.overflowPolicy ((s.reg spIx).toNat + 1) <;> simp [mapOk, hg]

theorem pushByte_map (g : State → State) (s s' : State) (v v' : State → Byte) (hp : s'.params = s.params)
    (hx : s'.reg spIx = s.reg spIx) (hg : s'.pushed v' = g (s.pushed v)) : s'.pushByte v' = mapOk g (s.pushByte v) := by
  cases h : s.pushByte v with
  | error c =>
    obtain ⟨h1, h2, h3⟩ := State.pushByte_error h
    cases h' : s'.pushByte v' with
    | error c' => simp [mapOk, (State.pushByte_error h').2.2, h3]
    | ok u => exact absurd (hx ▸ h2) ((State.pushByte_ok h').2 (by rw [hp]; exact h1))
  | ok t =>
    obtain ⟨rfl, hok⟩ := State.pushByte_ok h
    rw [State.pushByte_completes, hg]; · rfl
    rw [hp, hx]
    cases hq : s.params.overflowPolicy with
    | wrap8 => exact .inl rfl
    | faultOverflow => exact .inr (hok hq)

/-- The end of a step takes related answers to related next states. -/
theorem conclude_rel (G : State → State → Prop) {s s' : State} {op : Byte} {r r' : Except Cause State} {t : State}
    (hraise : ∀ c, r = .error c → r' = .error c ∧ G (s.raise c) (s'.raise c))
    (hok : ∀ u, r = .ok u → ∃ u', r' = .ok u' ∧ u'.run = u.run ∧ G u u' ∧ G (u.advance op) (u'.advance op))
    (h : s.conclude op r = .next t) : ∃ t', s'.conclude op r' = .next t' ∧ G t t' := by
  rcases State.conclude_cases h with ⟨c, hr, rfl⟩ | ⟨u, hr, hrun, rfl⟩ | ⟨u, hr, hrun, rfl⟩
  · obtain ⟨e, g⟩ := hraise c hr; rw [e]; exact ⟨_, rfl, g⟩
  · obtain ⟨u', e, hru, g, g'⟩ := hok _ hr
    rw [e, State.conclude_running _ (hru.trans hrun)]; exact ⟨_, rfl, g'⟩
  · obtain ⟨u', e, hru, g, g'⟩ := hok _ hr
    rw [e, State.conclude_ended _ (by rw [hru]; exact hrun)]; exact ⟨_, rfl, g⟩

end Sys2Proof.Machine
end

