-- ==== Sys2Proof/Laws/Run.lean ====
section
/-! SUPPORT. Runs of several steps: one step at a time, and invariants of steps carried over a run. -/

namespace Sys2Proof.Machine

/-- No steps. -/
theorem run_zero (s : State) : Host.Core.run core 0 s = .next s := rfl

/-- A step that has a next state begins a run. -/
theorem run_succ {n : Nat} {s t : State} (h : step s = .next t) :
    Host.Core.run core (n + 1) s = Host.Core.run core n t := by
  have e : ∀ (M : Host.Core) (s t : M.State), M.step s = .next t → M.run (n + 1) s = M.run n t := by
    intro M s t h; simp [Host.Core.run, h]
  exact e core s t h

/-- A run of at least one step that has a next state began with a step that has one. -/
theorem run_succ_next {n : Nat} {s u : State} (h : Host.Core.run core (n + 1) s = .next u) :
    ∃ t, step s = .next t ∧ Host.Core.run core n t = .next u := by
  have e : ∀ (M : Host.Core) (s u : M.State), M.run (n + 1) s = .next u →
      ∃ t, M.step s = .next t ∧ M.run n t = .next u := by
    intro M s u h
    simp only [Host.Core.run] at h
    split at h
    · exact ⟨_, ‹_›, h⟩
    · cases h
    · cases h
  exact e core s u h

/-- What every step keeps, a run keeps. -/
theorem run_keeps {P : State → Prop} (hP : ∀ s t, P s → step s = .next t → P t) {n : Nat} {s t : State} (hs : P s)
    (h : Host.Core.run core n s = .next t) : P t := by
  induction n generalizing s with
  | zero => injection h with h; exact h ▸ hs
  | succ n ih =>
    obtain ⟨u, hu, h⟩ := run_succ_next h
    exact ih (hP s u hs hu) h

end Sys2Proof.Machine
end

