-- ==== Sys2Proof/Tests/Slice0.lean ====
section
/-! SUPPORT. Tests from the spec's words and vectors (spec/95_test_vectors.md, named V-<id> below), the smoke tests of
WellFormed, and a witness for the hypotheses of every statement that has any. -/

namespace Sys2Proof.Tests

open Sys2Proof Sys2Proof.Machine

/-! ## Helpers -/

/-- R0 to R3 and SP as given, R4 to R6 zero. -/
def regs (r0 r1 r2 r3 sp : Byte) : Vector Byte 8 := #v[r0, r1, r2, r3, 0, 0, 0, sp]

/-- The reset state with the given bytes at `pc`, and the given registers, flags and policy. -/
def start (bytes : List Byte) (pc : Pc) (x : Vector Byte 8) (fl : Byte := 0) (p : OverflowPolicy := .wrap8) : State :=
  ({ State.reset with mem := Memory.place [] pc.toNat bytes, pc := pc, x := x, fl := fl } : State).withPolicy p

/-- One byte more in memory. -/
def poke (s : State) (k : Nat) (v : Byte) : State := { s with mem := s.mem.write k v }

/-- Some fields of the next state, where there is one. -/
def after {α : Type} (o : Host.Outcome State Fault Refusal) (f : State → α) : Option α :=
  match o with
  | .next t => some (f t)
  | .fault _ => none
  | .refused _ => none

/-- The step from `s` takes a fatal condition: its next state is all of `s`, with the run Faulted. -/
def takes (s : State) (c : Cause) : Bool :=
  decide (after (step s) (fun t => t) = some { s with run := .faulted c s.pc })

/-! ## WellFormed: each check refuses an ill-formed term -/

theorem test_wf_register_operands :
    Instr.wf (.push 8) = false ∧ Instr.wf (.pop 8) = false ∧ Instr.wf (.prn 8) = false ∧ Instr.wf (.call 8) = false ∧
    Instr.wf (.jmp 8) = false ∧ Instr.wf (.jeq 8) = false ∧ Instr.wf (.jne 255) = false ∧ Instr.wf (.inc 8) = false ∧
    Instr.wf (.dec 8) = false ∧ Instr.wf (.not 8) = false ∧ Instr.wf (.ldi 8 0) = false := by decide

theorem test_wf_two_register_operands :
    ([Instr.add, Instr.sub, Instr.mul, Instr.div, Instr.mod, Instr.cmp, Instr.and, Instr.or, Instr.xor, Instr.shl,
      Instr.shr].all fun op => !(op 8 0).wf && !(op 0 8).wf && (op 7 7).wf) = true := by decide

theorem test_wf_accepts : Instr.wf (.ldi 7 255) = true ∧ Instr.wf .hlt = true ∧ Instr.wf .ret = true := by decide

/-- One map for each instruction, whose byte has the wrong bits 7:4 and is used by no other instruction. -/
theorem test_map_bits :
    ([
      { defaultOpcodeMap with hlt := 0x41 }, { defaultOpcodeMap with ret := 0x02 },
      { defaultOpcodeMap with push := 0x85 }, { defaultOpcodeMap with pop := 0x06 },
      { defaultOpcodeMap with prn := 0x57 }, { defaultOpcodeMap with call := 0x40 },
      { defaultOpcodeMap with jmp := 0x44 }, { defaultOpcodeMap with jeq := 0x95 },
      { defaultOpcodeMap with jne := 0x76 }, { defaultOpcodeMap with inc := 0x4F },
      { defaultOpcodeMap with dec := 0x26 }, { defaultOpcodeMap with not := 0x79 },
      { defaultOpcodeMap with ldi := 0xB2 }, { defaultOpcodeMap with add := 0x60 },
      { defaultOpcodeMap with sub := 0x81 }, { defaultOpcodeMap with mul := 0xB3 },
      { defaultOpcodeMap with div := 0xE3 }, { defaultOpcodeMap with mod := 0x24 },
      { defaultOpcodeMap with cmp := 0x87 }, { defaultOpcodeMap with and := 0x68 },
      { defaultOpcodeMap with or := 0xBA }, { defaultOpcodeMap with xor := 0x8B },
      { defaultOpcodeMap with shl := 0xEC }, { defaultOpcodeMap with shr := 0x6D } ].all
      fun m : OpcodeMap => m.bytes.length == 24 && decide m.bytes.Nodup && !m.valid) = true := by decide

theorem test_map_distinct :
    (OpcodeMap.valid { defaultOpcodeMap with pop := 0x45 }) = false ∧
    (OpcodeMap.valid { defaultOpcodeMap with shr := 0xAC }) = false := by decide

/-- The default map, and one that gives INC, DEC and NOT count 2 (C1), are accepted. -/
theorem test_map_accepts :
    defaultOpcodeMap.valid = true ∧
    (OpcodeMap.valid { defaultOpcodeMap with inc := 0xA5, dec := 0xA6, not := 0xA9 }) = true := by decide

/-! ## Decode: words written out from R76, bit by bit -/

theorem test_decode_data_movement :
    decode defaultOpcodeMap 0b00000001 6 3 = .instr .hlt ∧
    decode defaultOpcodeMap 0b10000010 6 3 = .instr (.ldi 6 3) ∧
    decode defaultOpcodeMap 0b01000111 6 3 = .instr (.prn 6) := by decide

theorem test_decode_stack :
    decode defaultOpcodeMap 0b01000101 6 3 = .instr (.push 6) ∧
    decode defaultOpcodeMap 0b01000110 6 3 = .instr (.pop 6) := by decide

theorem test_decode_branch :
    decode defaultOpcodeMap 0b01010000 6 3 = .instr (.call 6) ∧
    decode defaultOpcodeMap 0b00010001 6 3 = .instr .ret ∧
    decode defaultOpcodeMap 0b01010100 6 3 = .instr (.jmp 6) ∧
    decode defaultOpcodeMap 0b01010101 6 3 = .instr (.jeq 6) ∧
    decode defaultOpcodeMap 0b01010110 6 3 = .instr (.jne 6) := by decide

theorem test_decode_alu_one_register :
    decode defaultOpcodeMap 0b01100101 6 3 = .instr (.inc 6) ∧
    decode defaultOpcodeMap 0b01100110 6 3 = .instr (.dec 6) ∧
    decode defaultOpcodeMap 0b01101001 6 3 = .instr (.not 6) := by decide

theorem test_decode_alu_arithmetic :
    decode defaultOpcodeMap 0b10100000 6 3 = .instr (.add 6 3) ∧
    decode defaultOpcodeMap 0b10100001 6 3 = .instr (.sub 6 3) ∧
    decode defaultOpcodeMap 0b10100010 6 3 = .instr (.mul 6 3) ∧
    decode defaultOpcodeMap 0b10100011 6 3 = .instr (.div 6 3) ∧
    decode defaultOpcodeMap 0b10100100 6 3 = .instr (.mod 6 3) ∧
    decode defaultOpcodeMap 0b10100111 6 3 = .instr (.cmp 6 3) := by decide

theorem test_decode_alu_bitwise :
    decode defaultOpcodeMap 0b10101000 6 3 = .instr (.and 6 3) ∧
    decode defaultOpcodeMap 0b10101010 6 3 = .instr (.or 6 3) ∧
    decode defaultOpcodeMap 0b10101011 6 3 = .instr (.xor 6 3) ∧
    decode defaultOpcodeMap 0b10101100 6 3 = .instr (.shl 6 3) ∧
    decode defaultOpcodeMap 0b10101101 6 3 = .instr (.shr 6 3) := by decide

theorem test_encode_data_movement :
    encode defaultOpcodeMap .hlt = [0b00000001] ∧
    encode defaultOpcodeMap (.ldi 6 3) = [0b10000010, 6, 3] ∧
    encode defaultOpcodeMap (.prn 6) = [0b01000111, 6] := by decide

theorem test_encode_stack :
    encode defaultOpcodeMap (.push 6) = [0b01000101, 6] ∧
    encode defaultOpcodeMap (.pop 6) = [0b01000110, 6] := by decide

theorem test_encode_branch :
    encode defaultOpcodeMap (.call 6) = [0b01010000, 6] ∧
    encode defaultOpcodeMap .ret = [0b00010001] ∧
    encode defaultOpcodeMap (.jmp 6) = [0b01010100, 6] ∧
    encode defaultOpcodeMap (.jeq 6) = [0b01010101, 6] ∧
    encode defaultOpcodeMap (.jne 6) = [0b01010110, 6] := by decide

theorem test_encode_alu_one_register :
    encode defaultOpcodeMap (.inc 6) = [0b01100101, 6] ∧
    encode defaultOpcodeMap (.dec 6) = [0b01100110, 6] ∧
    encode defaultOpcodeMap (.not 6) = [0b01101001, 6] := by decide

theorem test_encode_alu_arithmetic :
    encode defaultOpcodeMap (.add 6 3) = [0b10100000, 6, 3] ∧
    encode defaultOpcodeMap (.sub 6 3) = [0b10100001, 6, 3] ∧
    encode defaultOpcodeMap (.mul 6 3) = [0b10100010, 6, 3] ∧
    encode defaultOpcodeMap (.div 6 3) = [0b10100011, 6, 3] ∧
    encode defaultOpcodeMap (.mod 6 3) = [0b10100100, 6, 3] ∧
    encode defaultOpcodeMap (.cmp 6 3) = [0b10100111, 6, 3] := by decide

theorem test_encode_alu_bitwise :
    encode defaultOpcodeMap (.and 6 3) = [0b10101000, 6, 3] ∧
    encode defaultOpcodeMap (.or 6 3) = [0b10101010, 6, 3] ∧
    encode defaultOpcodeMap (.xor 6 3) = [0b10101011, 6, 3] ∧
    encode defaultOpcodeMap (.shl 6 3) = [0b10101100, 6, 3] ∧
    encode defaultOpcodeMap (.shr 6 3) = [0b10101101, 6, 3] := by decide

/-- Bit 0 of a table word is the least significant bit of the first byte, and bits from nbits on are 0. -/
theorem test_table_word :
    decodeTableWord 24 0b00001000_00000001_10000010 = some (.ldi 1 8) ∧ decodeTableWord 8 0xFF01 = some .hlt ∧
    decodeTableWord 16 0xFF_02_54 = some (.jmp 2) ∧ decodeTableWord 8 0x57 = none ∧ decodeTableWord 8 0xE0 = none := by
  decide

/-- V-D1 to V-D15: the decoder's outputs. -/
theorem test_decoder_fields :
    (operandCount 0x00, isAlu 0x00, setsPc 0x00) = (0, false, false) ∧
    (operandCount 0x11, isAlu 0x11, setsPc 0x11) = (0, false, true) ∧
    (operandCount 0x65, isAlu 0x65, setsPc 0x65) = (1, true, false) ∧
    (operandCount 0x82, isAlu 0x82, setsPc 0x82) = (2, false, false) ∧
    (operandCount 0xD0, isAlu 0xD0, setsPc 0xD0) = (3, false, true) ∧
    (operandCount 0xFF, isAlu 0xFF, setsPc 0xFF) = (3, true, true) := by decide

/-! ## Steps -/

/-- V-D1, V-D8, V-D9. -/
theorem test_unknown_skipped :
    after (step (start [0x00] 3 resetRegs)) (fun t => (t.diag, t.pc, t.run)) = some ([⟨3, 0x00⟩], 4, .running) ∧
    after (step (start [0x83] 3 resetRegs)) (fun t => (t.diag, t.pc)) = some ([⟨3, 0x83⟩], 6) ∧
    after (step (start [0xC0] 3 resetRegs)) (fun t => (t.diag, t.pc)) = some ([⟨3, 0xC0⟩], 7) := by decide

/-- V-D10, V-D11, V-D16. -/
theorem test_unknown_stays :
    after (step (start [0x57] 3 resetRegs)) (fun t => (t.diag, t.pc)) = some ([⟨3, 0x57⟩], 3) ∧
    after (step (start [0xD0] 3 resetRegs)) (fun t => (t.diag, t.pc)) = some ([⟨3, 0xD0⟩], 3) ∧
    after (step (start [0xC0] 253 resetRegs)) (fun t => (t.diag, t.pc)) = some ([⟨253, 0xC0⟩], 257) := by decide

/-- V-D12 to V-D15: fatal before the register check, whatever bit 4 is. -/
theorem test_unsupported_alu :
    takes (start [0x20, 0x09, 0x09] 3 resetRegs) (.unsupportedAluOperation 0x20) = true ∧
    takes (start [0x30, 0x09, 0x09] 3 resetRegs) (.unsupportedAluOperation 0x30) = true ∧
    takes (start [0xFF, 0x09, 0x09] 3 resetRegs) (.unsupportedAluOperation 0xFF) = true ∧
    takes (start [0xA5, 0x09, 0x09] 3 resetRegs) (.unsupportedAluOperation 0xA5) = true := by decide

/-- V-F1 to V-F3, and the step after V-D16. -/
theorem test_fetch_window :
    after (step (start [0x01] 253 resetRegs)) (fun t => (t.run, t.pc)) = some (.halted, 253) ∧
    takes (start [0x01] 254 resetRegs) .outOfBoundsFetch = true ∧
    takes (start [0x01] 255 resetRegs) .outOfBoundsFetch = true ∧
    takes { State.reset with pc := 257 } .outOfBoundsFetch = true := by decide

/-- A Halted and a Faulted state do not step (R111). -/
theorem test_ended_runs :
    step { State.reset with run := .halted } = .fault .halted ∧
    step { State.reset with run := .faulted .divisionByZero 6 } = .fault (.faulted .divisionByZero 6) := ⟨rfl, rfl⟩

/-- V-M7. -/
theorem test_hlt :
    after (step (start [0x01] 11 (regs 1 2 3 4 5) 4)) (fun t => t) =
      some { start [0x01] 11 (regs 1 2 3 4 5) 4 with run := .halted } := by decide

/-- V-M1 to V-M3. -/
theorem test_ldi :
    after (step (start [0x82, 0x00, 0x08] 0 resetRegs)) (fun t => (t.x, t.pc)) = some (regs 8 0 0 0 0xF4, 3) ∧
    after (step (start [0x82, 0x00, 0xFF] 0 resetRegs)) (fun t => t.reg 0) = some 255 ∧
    after (step (start [0x82, 0x07, 0x80] 0 resetRegs)) (fun t => t.x) = some (regs 0 0 0 0 0x80) := by decide

/-- V-M4. -/
theorem test_ldi_bad_register :
    takes (start [0x82, 0x08, 0x01] 0 resetRegs) (.outOfBoundsRegister 8) = true := by decide

/-- V-M5, V-M6; the line end of the text is log entry 28. -/
theorem test_prn :
    after (step (start [0x47, 0x00] 9 (regs 17 0 0 0 0xF4))) (fun t => (t.out, t.outText, t.pc)) = some ([17], "17\n", 11) ∧
    after (step (start [0x47, 0x07] 0 resetRegs)) (fun t => (t.out, t.pc)) = some ([244], 2) := by decide

/-- V-K1 to V-K3. -/
theorem test_push :
    after (step (start [0x45, 0x00] 0 (regs 5 0 0 0 0xF4))) (fun t => (t.x, t.mem.read 0xF3, t.pc)) =
      some (regs 5 0 0 0 0xF3, 5, 2) ∧
    after (step (start [0x45, 0x07] 0 resetRegs)) (fun t => (t.x, t.mem.read 0xF3)) = some (regs 0 0 0 0 0xF3, 0xF3) ∧
    after (step (start [0x45, 0x00] 10 (regs 9 0 0 0 0))) (fun t => (t.x, t.mem.read 0xFF, t.pc)) =
      some (regs 9 0 0 0 0xFF, 9, 12) := by decide

/-- V-K4, V-K11. -/
theorem test_push_fatal :
    takes (start [0x45, 0x00] 10 (regs 9 0 0 0 0) 0 .faultOverflow) (.overflow (-1)) = true ∧
    takes (start [0x45, 0x09] 0 resetRegs) (.outOfBoundsRegister 9) = true := by decide

/-- V-K5 to V-K8. -/
theorem test_pop :
    after (step (poke (start [0x46, 0x02] 0 (regs 0 0 0 0 0xF3)) 0xF3 5)) (fun t => (t.x, t.mem.read 0xF3, t.pc)) =
      some (regs 0 0 5 0 0xF4, 5, 2) ∧
    after (step (poke (start [0x46, 0x07] 0 (regs 0 0 0 0 0xF3)) 0xF3 0x10)) (fun t => t.x) = some (regs 0 0 0 0 0x11) ∧
    after (step (start [0x46, 0x00] 0 (regs 3 0 0 0 0xF4))) (fun t => t.x) = some (regs 0 0 0 0 0xF5) ∧
    after (step (poke (start [0x46, 0x00] 10 (regs 0 0 0 0 0xFF)) 0xFF 3)) (fun t => (t.x, t.pc)) =
      some (regs 3 0 0 0 0, 12) := by decide

/-- V-K9, V-K10. -/
theorem test_pop_fatal :
    takes (poke (start [0x46, 0x00] 10 (regs 0 0 0 0 0xFF) 0 .faultOverflow) 0xFF 3) (.overflow 256) = true ∧
    takes (poke (start [0x46, 0x07] 0 (regs 0 0 0 0 0xF3) 0 .faultOverflow) 0xF3 0xFF) (.overflow 256) = true :=
  by decide

/-- V-B1, V-B2. -/
theorem test_call :
    after (step (start [0x50, 0x01] 6 (regs 0 11 0 0 0xF4))) (fun t => (t.x, t.mem.read 0xF3, t.pc)) =
      some (regs 0 11 0 0 0xF3, 8, 11) ∧
    after (step (start [0x50, 0x07] 6 resetRegs)) (fun t => (t.x, t.mem.read 0xF3, t.pc)) =
      some (regs 0 0 0 0 0xF3, 8, 0xF3) := by decide

/-- The last address a CALL is fetched from: the pushed byte is 255. -/
theorem test_call_at_253 :
    after (step (start [0x50, 0x01] 253 (regs 0 9 0 0 0xF4))) (fun t => (t.mem.read 0xF3, t.pc)) =
      some (255, 9) := by decide

/-- V-B3, V-B4. -/
theorem test_ret :
    after (step (poke (start [0x11] 14 (regs 0 0 0 0 0xF3)) 0xF3 8)) (fun t => (t.x, t.pc)) = some (regs 0 0 0 0 0xF4, 8) ∧
    after (step (start [0x11] 14 resetRegs)) (fun t => (t.x, t.pc)) = some (regs 0 0 0 0 0xF5, 0) := by decide

/-- V-B5, V-B6. -/
theorem test_jeq :
    after (step (start [0x55, 0x03] 4 (regs 0 0 0 20 0xF4) 1)) (fun t => t.pc) = some 20 ∧
    after (step (start [0x55, 0x03] 4 (regs 0 0 0 20 0xF4) 2)) (fun t => t.pc) = some 6 := by decide

/-- V-B7: checked when not taken. -/
theorem test_jeq_bad_register :
    takes (start [0x55, 0x09] 4 resetRegs) (.outOfBoundsRegister 9) = true := by decide

/-- V-B8 to V-B10. -/
theorem test_jne :
    after (step (start [0x56, 0x02] 16 (regs 0 0 9 0 0xF4) 4)) (fun t => t.pc) = some 9 ∧
    after (step (start [0x56, 0x02] 16 (regs 0 0 9 0 0xF4) 1)) (fun t => t.pc) = some 18 ∧
    after (step (start [0x56, 0x02] 16 (regs 0 0 9 0 0xF4) 0)) (fun t => t.pc) = some 9 := by decide

/-- V-B11, V-B12. -/
theorem test_jmp :
    after (step (start [0x54, 0x02] 16 (regs 0 0 9 0 0xF4))) (fun t => t.pc) = some 9 ∧
    after (step (start [0x54, 0x00] 0 resetRegs)) (fun t => t) = some (start [0x54, 0x00] 0 resetRegs) := by decide

/-- V-A1 to V-A4. -/
theorem test_add :
    after (step (start [0xA0, 0x00, 0x01] 0 (regs 8 9 0 0 0xF4))) (fun t => (t.x, t.fl, t.pc)) =
      some (regs 17 9 0 0 0xF4, 0, 3) ∧
    after (step (start [0xA0, 0x00, 0x01] 0 (regs 200 100 0 0 0xF4))) (fun t => t.reg 0) = some 44 ∧
    after (step (start [0xA0, 0x00, 0x01] 0 (regs 255 1 0 0 0xF4))) (fun t => t.reg 0) = some 0 ∧
    after (step (start [0xA0, 0x00, 0x00] 0 (regs 7 0 0 0 0xF4))) (fun t => t.reg 0) = some 14 := by decide

/-- V-A2 under FaultOverflow, V-A46, V-A47. -/
theorem test_add_fatal :
    takes (start [0xA0, 0x00, 0x01] 0 (regs 200 100 0 0 0xF4) 0 .faultOverflow) (.overflow 300) = true ∧
    takes (start [0xA0, 0x00, 0x09] 0 (regs 1 0 0 0 0xF4)) (.outOfBoundsRegister 9) = true ∧
    takes (start [0xA0, 0x09, 0x08] 0 (regs 1 0 0 0 0xF4)) (.outOfBoundsRegister 9) = true := by decide

/-- V-A5 to V-A8. -/
theorem test_sub :
    after (step (start [0xA1, 0x00, 0x01] 0 (regs 9 4 0 0 0xF4))) (fun t => (t.x, t.fl, t.pc)) =
      some (regs 5 4 0 0 0xF4, 0, 3) ∧
    after (step (start [0xA1, 0x00, 0x01] 0 (regs 3 5 0 0 0xF4))) (fun t => t.reg 0) = some 254 ∧
    after (step (start [0xA1, 0x00, 0x01] 0 (regs 0 1 0 0 0xF4))) (fun t => t.reg 0) = some 255 ∧
    after (step (start [0xA1, 0x00, 0x00] 0 (regs 9 0 0 0 0xF4))) (fun t => t.reg 0) = some 0 := by decide

/-- V-A6 under FaultOverflow. -/
theorem test_sub_fatal :
    takes (start [0xA1, 0x00, 0x01] 0 (regs 3 5 0 0 0xF4) 0 .faultOverflow) (.overflow (-2)) = true := by decide

/-- V-A9 to V-A12. -/
theorem test_mul :
    after (step (start [0xA2, 0x00, 0x01] 0 (regs 6 7 0 0 0xF4))) (fun t => (t.x, t.fl, t.pc)) =
      some (regs 42 7 0 0 0xF4, 0, 3) ∧
    after (step (start [0xA2, 0x00, 0x01] 0 (regs 16 16 0 0 0xF4))) (fun t => t.reg 0) = some 0 ∧
    after (step (start [0xA2, 0x00, 0x01] 0 (regs 255 255 0 0 0xF4))) (fun t => t.reg 0) = some 1 ∧
    after (step (start [0xA2, 0x00, 0x01] 0 (regs 0 200 0 0 0xF4))) (fun t => t.reg 0) = some 0 := by decide

/-- V-A10, V-A11 under FaultOverflow. -/
theorem test_mul_fatal :
    takes (start [0xA2, 0x00, 0x01] 0 (regs 16 16 0 0 0xF4) 0 .faultOverflow) (.overflow 256) = true ∧
    takes (start [0xA2, 0x00, 0x01] 0 (regs 255 255 0 0 0xF4) 0 .faultOverflow) (.overflow 65025) = true := by decide

/-- V-A13 to V-A15, V-A17. -/
theorem test_div :
    after (step (start [0xA3, 0x00, 0x01] 0 (regs 7 2 0 0 0xF4))) (fun t => (t.x, t.fl, t.pc)) =
      some (regs 3 2 0 0 0xF4, 0, 3) ∧
    after (step (start [0xA3, 0x00, 0x01] 0 (regs 0 5 0 0 0xF4))) (fun t => t.reg 0) = some 0 ∧
    after (step (start [0xA3, 0x00, 0x01] 0 (regs 255 1 0 0 0xF4))) (fun t => t.reg 0) = some 255 ∧
    after (step (start [0xA3, 0x00, 0x00] 0 (regs 9 0 0 0 0xF4))) (fun t => t.reg 0) = some 1 := by decide

/-- V-A16, V-A18. -/
theorem test_div_fatal :
    takes (start [0xA3, 0x00, 0x01] 0 (regs 7 0 0 0 0xF4)) .divisionByZero = true ∧
    takes (start [0xA3, 0x00, 0x00] 0 resetRegs) .divisionByZero = true := by decide

/-- V-A19, V-A20, V-A22. -/
theorem test_mod :
    after (step (start [0xA4, 0x00, 0x01] 0 (regs 17 5 0 0 0xF4))) (fun t => (t.x, t.fl, t.pc)) =
      some (regs 2 5 0 0 0xF4, 0, 3) ∧
    after (step (start [0xA4, 0x00, 0x01] 0 (regs 5 7 0 0 0xF4))) (fun t => t.reg 0) = some 5 ∧
    after (step (start [0xA4, 0x00, 0x00] 0 (regs 9 0 0 0 0xF4))) (fun t => t.reg 0) = some 0 := by decide

/-- V-A21. -/
theorem test_mod_fatal :
    takes (start [0xA4, 0x00, 0x01] 0 (regs 7 0 0 0 0xF4)) .divisionByZero = true := by decide

/-- V-A23, V-A24: the third byte is not checked. -/
theorem test_inc :
    after (step (start [0x65, 0x00, 0xFF] 0 (regs 4 0 0 0 0xF4))) (fun t => (t.x, t.fl, t.pc)) =
      some (regs 5 0 0 0 0xF4, 0, 2) ∧
    after (step (start [0x65, 0x00, 0xFF] 0 (regs 255 0 0 0 0xF4))) (fun t => (t.x, t.fl, t.pc)) =
      some (regs 0 0 0 0 0xF4, 0, 2) := by decide

/-- V-A24 under FaultOverflow, V-A48. -/
theorem test_inc_fatal :
    takes (start [0x65, 0x00, 0xFF] 0 (regs 255 0 0 0 0xF4) 0 .faultOverflow) (.overflow 256) = true ∧
    takes (start [0x65, 0x09, 0x00] 0 resetRegs) (.outOfBoundsRegister 9) = true := by decide

/-- V-A25, V-A26. -/
theorem test_dec :
    after (step (start [0x66, 0x00, 0xFF] 0 (regs 3 0 0 0 0xF4))) (fun t => (t.x, t.fl, t.pc)) =
      some (regs 2 0 0 0 0xF4, 0, 2) ∧
    after (step (start [0x66, 0x00, 0xFF] 0 (regs 0 0 0 0 0xF4))) (fun t => (t.x, t.fl, t.pc)) =
      some (regs 255 0 0 0 0xF4, 0, 2) := by decide

/-- V-A26 under FaultOverflow. -/
theorem test_dec_fatal :
    takes (start [0x66, 0x00, 0xFF] 0 (regs 0 0 0 0 0xF4) 0 .faultOverflow) (.overflow (-1)) = true := by decide

/-- V-A27 to V-A30, from an FL with every bit set. -/
theorem test_cmp :
    after (step (start [0xA7, 0x00, 0x01] 0 (regs 2 0 0 0 0xF4) 0xFF)) (fun t => (t.fl, t.x, t.pc)) =
      some (0b010, regs 2 0 0 0 0xF4, 3) ∧
    after (step (start [0xA7, 0x00, 0x01] 0 (regs 0 2 0 0 0xF4) 0xFF)) (fun t => (t.fl, t.x, t.pc)) =
      some (0b100, regs 0 2 0 0 0xF4, 3) ∧
    after (step (start [0xA7, 0x00, 0x01] 0 (regs 5 5 0 0 0xF4) 0xFF)) (fun t => (t.fl, t.x, t.pc)) =
      some (0b001, regs 5 5 0 0 0xF4, 3) ∧
    after (step (start [0xA7, 0x00, 0x00] 0 (regs 5 0 0 0 0xF4) 0xFF)) (fun t => (t.fl, t.x, t.pc)) =
      some (0b001, regs 5 0 0 0 0xF4, 3) := by decide

/-- The comparison is unsigned (R172): 0x80 is above 0x7F. -/
theorem test_cmp_unsigned :
    after (step (start [0xA7, 0x00, 0x01] 0 (regs 0x80 0x7F 0 0 0xF4) 0xFF)) (fun t => (t.fl, t.x, t.pc)) =
      some (0b010, regs 0x80 0x7F 0 0 0xF4, 3) := by decide

/-- V-A31. -/
theorem test_and :
    after (step (start [0xA8, 0x00, 0x01] 0 (regs 12 10 0 0 0xF4))) (fun t => (t.x, t.fl, t.pc)) =
      some (regs 8 10 0 0 0xF4, 0, 3) := by decide

/-- V-A32. -/
theorem test_or :
    after (step (start [0xAA, 0x00, 0x01] 0 (regs 12 10 0 0 0xF4))) (fun t => (t.x, t.fl, t.pc)) =
      some (regs 14 10 0 0 0xF4, 0, 3) := by decide

/-- V-A33, V-A34. -/
theorem test_xor :
    after (step (start [0xAB, 0x00, 0x01] 0 (regs 12 10 0 0 0xF4))) (fun t => (t.x, t.fl, t.pc)) =
      some (regs 6 10 0 0 0xF4, 0, 3) ∧
    after (step (start [0xAB, 0x00, 0x00] 0 (regs 77 0 0 0 0xF4))) (fun t => t.reg 0) = some 0 := by decide

/-- V-A35 to V-A39. -/
theorem test_shl :
    after (step (start [0xAC, 0x00, 0x01] 0 (regs 3 2 0 0 0xF4))) (fun t => (t.x, t.fl, t.pc)) =
      some (regs 12 2 0 0 0xF4, 0, 3) ∧
    after (step (start [0xAC, 0x00, 0x01] 0 (regs 0x81 1 0 0 0xF4))) (fun t => t.reg 0) = some 2 ∧
    after (step (start [0xAC, 0x00, 0x01] 0 (regs 1 8 0 0 0xF4))) (fun t => t.reg 0) = some 0 ∧
    after (step (start [0xAC, 0x00, 0x01] 0 (regs 5 0 0 0 0xF4))) (fun t => t.reg 0) = some 5 ∧
    after (step (start [0xAC, 0x00, 0x00] 0 (regs 3 0 0 0 0xF4))) (fun t => t.reg 0) = some 24 := by decide

/-- V-A36, V-A37 under FaultOverflow. -/
theorem test_shl_fatal :
    takes (start [0xAC, 0x00, 0x01] 0 (regs 0x81 1 0 0 0xF4) 0 .faultOverflow) (.overflow 258) = true ∧
    takes (start [0xAC, 0x00, 0x01] 0 (regs 1 8 0 0 0xF4) 0 .faultOverflow) (.overflow 256) = true := by decide

/-- V-A40 to V-A42. -/
theorem test_shr :
    after (step (start [0xAD, 0x00, 0x01] 0 (regs 128 7 0 0 0xF4))) (fun t => (t.x, t.fl, t.pc)) =
      some (regs 1 7 0 0 0xF4, 0, 3) ∧
    after (step (start [0xAD, 0x00, 0x01] 0 (regs 200 8 0 0 0xF4))) (fun t => t.reg 0) = some 0 ∧
    after (step (start [0xAD, 0x00, 0x01] 0 (regs 5 0 0 0 0xF4))) (fun t => t.reg 0) = some 5 := by decide

/-- V-A43 to V-A45. -/
theorem test_not :
    after (step (start [0x69, 0x00, 0xFF] 0 (regs 15 0 0 0 0xF4))) (fun t => (t.x, t.fl, t.pc)) =
      some (regs 240 0 0 0 0xF4, 0, 2) ∧
    after (step (start [0x69, 0x00, 0xFF] 0 (regs 0 0 0 0 0xF4))) (fun t => (t.x, t.fl, t.pc)) =
      some (regs 255 0 0 0 0xF4, 0, 2) ∧
    after (step (start [0x69, 0x00, 0xFF] 0 (regs 255 0 0 0 0xF4))) (fun t => (t.x, t.fl, t.pc)) =
      some (regs 0 0 0 0 0xF4, 0, 2) := by decide

/-- V-A43 to V-A45 under FaultOverflow: NOT always overflows. -/
theorem test_not_fatal :
    takes (start [0x69, 0x00, 0xFF] 0 (regs 15 0 0 0 0xF4) 0 .faultOverflow) (.overflow (-16)) = true ∧
    takes (start [0x69, 0x00, 0xFF] 0 (regs 0 0 0 0 0xF4) 0 .faultOverflow) (.overflow (-1)) = true ∧
    takes (start [0x69, 0x00, 0xFF] 0 (regs 255 0 0 0 0xF4) 0 .faultOverflow) (.overflow (-256)) = true := by decide

/-- Under a map with count 2 for INC, the same rules advance by 3 (C1). -/
theorem test_inc_three_bytes :
    after (step (({ start [0xA5, 0x00, 0xFF] 0 (regs 4 0 0 0 0xF4) with
      params := ⟨.wrap8, { defaultOpcodeMap with inc := 0xA5 }⟩ } : State))) (fun t => (t.reg 0, t.pc)) =
      some (5, 3) := by decide

/-! ## Loading, the placed word, the trace -/

theorem test_launch :
    State.launch defaultParams [0x82, 0, 8] 0 = .ok (start [0x82, 0, 8] 0 resetRegs) ∧
    State.launch defaultParams (List.replicate 257 1) 0 = .error .imageTooLong ∧
    State.launch ⟨.wrap8, { defaultOpcodeMap with pop := 0x45 }⟩ [] 0 = .error .badOpcodeMap :=
  ⟨rfl, if_pos (by rw [List.length_replicate]; decide), rfl⟩

theorem test_withFetchWord :
    after (step (State.reset.withFetchWord 24 0x08_01_82)) (fun t => (t.reg 1, t.pc)) = some (8, 3) ∧
    after (step (State.reset.withFetchWord 8 0x01)) (fun t => t.run) = some .halted := by decide

theorem test_trace :
    (start [0xA0, 0, 1] 254 resetRegs).trace = ⟨254, [some 0xA0, some 0, none], resetRegs⟩ := by decide

theorem test_codes :
    [Cause.unsupportedAluOperation 0, .divisionByZero, .outOfBoundsFetch, .outOfBoundsRegister 8, .outOfBoundsData 256,
      .overflow 256].map Cause.code = [2, 3, 4, 5, 6, 7] ∧ unknownOpcodeCode = 1 := by decide

theorem test_memory_canonical :
    Memory.write [(3, 7)] 3 0 = [] ∧ Memory.write [(3, 7)] 1 2 = [(1, 2), (3, 7)] ∧ Memory.wf [(1, 2), (3, 7)] = true ∧
    Memory.wf [(3, 7), (1, 2)] = false ∧ Memory.wf [(3, 7), (3, 2)] = false ∧ Memory.wf [(3, 0)] = false ∧
    Memory.wf [(256, 1)] = false := by decide

theorem test_data_bounds :
    State.reset.memRead 255 = .ok 0 ∧ State.reset.memRead 256 = .error (.outOfBoundsData 256) ∧
    State.reset.memWrite 256 1 = .error (.outOfBoundsData 256) := ⟨rfl, rfl, rfl⟩

/-! ## Witnesses: for every statement with hypotheses, states and operands that meet them, at each clause's boundary -/

/-- The reset state with given R0, R1 and SP under FaultOverflow. -/
def strict (r0 r1 sp : Byte) : State := start [] 0 (regs r0 r1 0 0 sp) 0 .faultOverflow

/-- The same under Wrap8. -/
def wrap (r0 r1 sp : Byte) : State := start [] 0 (regs r0 r1 0 0 sp)

/-- What the statements about one instruction ask of the state. -/
abbrev ready (s : State) : Prop := s.run = .running ∧ s.params.opcodeMap.valid = true

theorem witness_HltHalts :
    (∀ p ∈ [(0xFE : Pc), 0xFF], (start [0x01] p resetRegs).run = .running ∧
      ((start [0x01] p resetRegs).pc = 0xFE ∨ (start [0x01] p resetRegs).pc = 0xFF)) ∧
    ∃ t, exec .hlt State.reset = .next t ∧ State.reset.run = .running ∧ t.run = .halted := ⟨by decide, _, rfl, rfl, rfl⟩

theorem witness_LdiLoadsImmediate :
    State.reset.run = .running ∧ State.reset.params.opcodeMap.valid = true ∧ 7 < (8 : Byte).toNat ∧ 7 < (255 : Byte).toNat :=
  by decide

theorem witness_PrnEmitsRegister :
    State.reset.run = .running ∧ State.reset.params.opcodeMap.valid = true ∧ 7 < (8 : Byte).toNat ∧
    7 < (255 : Byte).toNat ∧
    ∃ t, exec (.prn 7) State.reset = .next t ∧ t.out ≠ State.reset.out :=
  ⟨rfl, by decide, by decide, by decide, _, rfl, by decide⟩

theorem witness_PushStoresRegister :
    (wrap 9 0 0).params.overflowPolicy = .wrap8 ∧ (wrap 9 0 0).reg 7 = 0 ∧
    (strict 9 0 1).reg 7 ≠ 0 ∧
    (strict 9 0 0).params.overflowPolicy = .faultOverflow ∧ (strict 9 0 0).reg 7 = 0 ∧
    ready (wrap 9 0 0) ∧ ready (strict 9 0 1) ∧ ready (strict 9 0 0) ∧
    7 < (8 : Byte).toNat ∧ 7 < (255 : Byte).toNat := by decide

theorem witness_PopLoadsRegister :
    (wrap 9 0 255).params.overflowPolicy = .wrap8 ∧ (wrap 9 0 255).mem.read 255 = 0 ∧ (wrap 9 0 255).reg 7 = 255 ∧
    (∃ i : RegIx, ∃ v sp : Byte, v = (strict 0 0 254).mem.read ((strict 0 0 254).reg 7).toNat ∧
      sp = (if i = 7 then v else (strict 0 0 254).reg 7) ∧ sp ≠ 255) ∧
    (∃ i : RegIx, ∃ v sp : Byte, v = (strict 0 0 255).mem.read ((strict 0 0 255).reg 7).toNat ∧
      sp = (if i = 7 then v else (strict 0 0 255).reg 7) ∧ i ≠ 7 ∧ sp = 255) ∧
    (∃ i : RegIx, ∃ v sp : Byte, v = (poke (strict 0 0 9) 9 255).mem.read ((poke (strict 0 0 9) 9 255).reg 7).toNat ∧
      sp = (if i = 7 then v else (poke (strict 0 0 9) 9 255).reg 7) ∧ i = 7 ∧ sp = 255) ∧
    ready (wrap 9 0 255) ∧ ready (strict 0 0 254) ∧ ready (strict 0 0 255) ∧ ready (poke (strict 0 0 9) 9 255) ∧
    7 < (8 : Byte).toNat ∧ 7 < (255 : Byte).toNat :=
  ⟨rfl, by decide, by decide, ⟨0, 0, 254, by decide⟩, ⟨0, 0, 255, by decide⟩, ⟨7, 255, 255, by decide⟩,
    by decide, by decide, by decide, by decide, by decide, by decide⟩

theorem witness_CallPushesReturnAddress :
    (∀ s ∈ [start [0x50, 1] 253 (regs 0 0 0 0 0), start [0x50, 1] 253 (regs 0 0 0 0 1) 0 .faultOverflow,
        start [0x50, 1] 253 (regs 0 0 0 0 0) 0 .faultOverflow],
      s.run = .running ∧ s.params.opcodeMap.valid = true ∧ s.pc.toNat ≤ 253) ∧
    (start [0x50, 1] 253 (regs 0 0 0 0 0)).params.overflowPolicy = .wrap8 ∧
    (start [0x50, 1] 253 (regs 0 0 0 0 1) 0 .faultOverflow).reg 7 ≠ 0 ∧
    (start [0x50, 1] 253 (regs 0 0 0 0 0) 0 .faultOverflow).reg 7 = 0 ∧
    7 < (8 : Byte).toNat ∧ 7 < (255 : Byte).toNat := by decide

theorem witness_RetPopsPc :
    (wrap 9 0 255).params.overflowPolicy = .wrap8 ∧ (wrap 9 0 255).reg 7 = 255 ∧
    (strict 9 0 254).reg 7 ≠ 255 ∧
    (strict 9 0 255).params.overflowPolicy = .faultOverflow ∧ (strict 9 0 255).reg 7 = 255 ∧
    ready (wrap 9 0 255) ∧ ready (strict 9 0 254) ∧ ready (strict 9 0 255) := by decide

theorem witness_JmpSetsPc :
    State.reset.run = .running ∧ State.reset.params.opcodeMap.valid = true ∧ 7 < (8 : Byte).toNat ∧
    7 < (255 : Byte).toNat ∧
    (∃ s : State, s = start [0x54, 0] 253 (regs 253 0 0 0 0xF4) ∧ s.run = .running ∧ s.params.opcodeMap.valid = true ∧
      s.pc.toNat ≤ 253 ∧ decode s.params.opcodeMap (s.mem.read s.pc.toNat) (s.mem.read (s.pc.toNat + 1))
      (s.mem.read (s.pc.toNat + 2)) = .instr (.jmp (BitVec.ofNat 8 (0 : RegIx))) ∧ zext9 (s.reg 0) = s.pc) :=
  ⟨rfl, by decide, by decide, by decide, _, rfl, by decide⟩

theorem witness_JeqBranchesOnEqual :
    State.reset.run = .running ∧ State.reset.params.opcodeMap.valid = true ∧ 7 < (8 : Byte).toNat ∧
    7 < (255 : Byte).toNat ∧
    (start [] 0 resetRegs 1).fl.getLsbD 0 = true ∧ (start [] 0 resetRegs 6).fl.getLsbD 0 = false := by decide

theorem witness_JneBranchesOnNotEqual :
    State.reset.run = .running ∧ State.reset.params.opcodeMap.valid = true ∧ 7 < (8 : Byte).toNat ∧
    7 < (255 : Byte).toNat ∧
    (start [] 0 resetRegs 1).fl.getLsbD 0 = true ∧ (start [] 0 resetRegs 6).fl.getLsbD 0 = false := by decide

theorem witness_IncAddsOne :
    (wrap 255 0 0).params.overflowPolicy = .wrap8 ∧ (wrap 255 0 0).reg 0 = 255 ∧
    (strict 254 0 0).reg 0 ≠ 255 ∧
    (strict 255 0 0).params.overflowPolicy = .faultOverflow ∧ (strict 255 0 0).reg 0 = 255 ∧
    ready (wrap 255 0 0) ∧ ready (strict 254 0 0) ∧ ready (strict 255 0 0) ∧
    7 < (8 : Byte).toNat ∧ 7 < (255 : Byte).toNat := by decide

theorem witness_DecSubtractsOne :
    (wrap 0 0 0).params.overflowPolicy = .wrap8 ∧ (wrap 0 0 0).reg 0 = 0 ∧
    (strict 1 0 0).reg 0 ≠ 0 ∧
    (strict 0 0 0).params.overflowPolicy = .faultOverflow ∧ (strict 0 0 0).reg 0 = 0 ∧
    ready (wrap 0 0 0) ∧ ready (strict 1 0 0) ∧ ready (strict 0 0 0) ∧
    7 < (8 : Byte).toNat ∧ 7 < (255 : Byte).toNat := by decide

theorem witness_NotComplements :
    (wrap 15 0 0).params.overflowPolicy = .wrap8 ∧
    (strict 255 0 0).params.overflowPolicy = .faultOverflow ∧
    ready (wrap 15 0 0) ∧ ready (strict 255 0 0) ∧
    7 < (8 : Byte).toNat ∧ 7 < (255 : Byte).toNat := by decide

theorem witness_AddFitsSum :
    (wrap 255 1 0).params.overflowPolicy = .wrap8 ∧ 255 < ((wrap 255 1 0).reg 0).toNat + ((wrap 255 1 0).reg 1).toNat ∧
    ((strict 254 1 0).reg 0).toNat + ((strict 254 1 0).reg 1).toNat ≤ 255 ∧
    (strict 255 1 0).params.overflowPolicy = .faultOverflow ∧
    255 < ((strict 255 1 0).reg 0).toNat + ((strict 255 1 0).reg 1).toNat ∧
    ready (wrap 255 1 0) ∧ ready (strict 254 1 0) ∧ ready (strict 255 1 0) ∧
    7 < (8 : Byte).toNat ∧ 7 < (255 : Byte).toNat := by decide

theorem witness_MulFitsProduct :
    (wrap 16 16 0).params.overflowPolicy = .wrap8 ∧ 255 < ((wrap 16 16 0).reg 0).toNat * ((wrap 16 16 0).reg 1).toNat ∧
    ((strict 51 5 0).reg 0).toNat * ((strict 51 5 0).reg 1).toNat ≤ 255 ∧
    (strict 16 16 0).params.overflowPolicy = .faultOverflow ∧
    255 < ((strict 16 16 0).reg 0).toNat * ((strict 16 16 0).reg 1).toNat ∧
    ready (wrap 16 16 0) ∧ ready (strict 51 5 0) ∧ ready (strict 16 16 0) ∧
    7 < (8 : Byte).toNat ∧ 7 < (255 : Byte).toNat := by decide

theorem witness_ShlShiftsLeft :
    (wrap 1 8 0).params.overflowPolicy = .wrap8 ∧ 255 < ((wrap 1 8 0).reg 0).toNat * 2 ^ ((wrap 1 8 0).reg 1).toNat ∧
    ((strict 1 7 0).reg 0).toNat * 2 ^ ((strict 1 7 0).reg 1).toNat ≤ 255 ∧
    (strict 1 8 0).params.overflowPolicy = .faultOverflow ∧
    255 < ((strict 1 8 0).reg 0).toNat * 2 ^ ((strict 1 8 0).reg 1).toNat ∧
    ready (wrap 1 8 0) ∧ ready (strict 1 7 0) ∧ ready (strict 1 8 0) ∧
    7 < (8 : Byte).toNat ∧ 7 < (255 : Byte).toNat := by decide

theorem witness_SubFitsDifference :
    (wrap 0 1 0).params.overflowPolicy = .wrap8 ∧ ((wrap 0 1 0).reg 0).toNat < ((wrap 0 1 0).reg 1).toNat ∧
    ((strict 5 5 0).reg 1).toNat ≤ ((strict 5 5 0).reg 0).toNat ∧
    (strict 4 5 0).params.overflowPolicy = .faultOverflow ∧ ((strict 4 5 0).reg 0).toNat < ((strict 4 5 0).reg 1).toNat ∧
    ready (wrap 0 1 0) ∧ ready (strict 5 5 0) ∧ ready (strict 4 5 0) ∧
    7 < (8 : Byte).toNat ∧ 7 < (255 : Byte).toNat := by decide

theorem witness_DivWritesQuotient :
    (strict 7 1 0).reg 1 ≠ 0 ∧ (wrap 7 1 0).reg 1 ≠ 0 ∧
    (strict 7 0 0).reg 1 = 0 ∧ (wrap 7 0 0).reg 1 = 0 ∧
    ready (strict 7 1 0) ∧ ready (wrap 7 1 0) ∧ ready (strict 7 0 0) ∧ ready (wrap 7 0 0) ∧
    7 < (8 : Byte).toNat ∧ 7 < (255 : Byte).toNat := by decide

theorem witness_ModWritesRemainder :
    (strict 7 1 0).reg 1 ≠ 0 ∧ (wrap 7 1 0).reg 1 ≠ 0 ∧
    (strict 7 0 0).reg 1 = 0 ∧ (wrap 7 0 0).reg 1 = 0 ∧
    ready (strict 7 1 0) ∧ ready (wrap 7 1 0) ∧ ready (strict 7 0 0) ∧ ready (wrap 7 0 0) ∧
    7 < (8 : Byte).toNat ∧ 7 < (255 : Byte).toNat := by decide

theorem witness_CmpWritesFlags :
    State.reset.run = .running ∧ State.reset.params.opcodeMap.valid = true ∧ 7 < (8 : Byte).toNat ∧ 7 < (255 : Byte).toNat :=
  by decide

theorem witness_BitwiseCombineBits :
    State.reset.run = .running ∧ State.reset.params.opcodeMap.valid = true ∧ 7 < (8 : Byte).toNat ∧ 7 < (255 : Byte).toNat :=
  by decide

theorem witness_ShrShiftsRight :
    ready (wrap 200 8 0) ∧ 7 < (8 : Byte).toNat ∧ 7 < (255 : Byte).toNat ∧
    8 ≤ ((wrap 200 8 0).reg 1).toNat := by decide

/-- Completed, and a fatal condition taken. -/
theorem witness_RegisterWritersFrame :
    (Instr.add 0 1 ∈ [Instr.inc 0, .dec 0, .not 0, .ldi 0 1, .add 0 1, .sub 0 1, .mul 0 1, .div 0 1, .mod 0 1, .and 0 1,
      .or 0 1, .xor 0 1, .shl 0 1, .shr 0 1]) ∧
    (∃ t, exec (.add 0 1) (wrap 8 9 0) = .next t ∧ t.run = .running) ∧
    ∃ t, exec (.div 0 1) (wrap 8 0 0) = .next t ∧ t.run ≠ .running :=
  ⟨by decide, ⟨_, rfl, rfl⟩, _, rfl, by decide⟩

theorem witness_CmpFrame :
    (∃ t, exec (.cmp 0 1) (wrap 8 9 0) = .next t ∧ t.fl ≠ (wrap 8 9 0).fl) ∧
    ∃ t, exec (.cmp 0 8) (wrap 8 9 0) = .next t ∧ t.run ≠ .running := ⟨⟨_, rfl, by decide⟩, _, rfl, by decide⟩

theorem witness_JumpOutputHaltFrame :
    (∀ i ∈ [Instr.jmp 0, .jeq 0, .jne 0, .prn 0, .hlt],
      after (exec i (wrap 8 9 0)) (fun t => t.fl) = some 0) ∧ Instr.jeq 0 ≠ .prn 0 := by decide

theorem witness_StackStoresFrame :
    (∀ i ∈ [Instr.push 0, .call 0], after (exec i (wrap 8 9 0)) (fun t => t.reg 7) = some 255) ∧
    (∃ d, (wrap 8 9 0).decSp = .ok d ∧ (d.reg spIx).toNat = 255) ∧ ∃ c, (strict 8 9 0).decSp = .error c :=
  ⟨by decide, ⟨_, rfl, by decide⟩, _, rfl⟩

theorem witness_StackLoadsFrame :
    (∀ i ∈ [Instr.pop 0, .ret], after (exec i (wrap 8 9 255)) (fun t => t.reg 7) = some 0) ∧
    (1 : RegIx) ≠ 7 ∧ (1 : RegIx).val ≠ (0 : Byte).toNat := by decide

theorem witness_FatalConditionWritesRunOnly :
    ∃ t, step (start [0xA3, 0, 1] 253 (regs 7 0 0 0 0)) = .next t ∧ t.run = .faulted .divisionByZero 253 :=
  ⟨_, rfl, rfl⟩

theorem witness_FetchOutsideMemoryFaults :
    (start [] 254 resetRegs).run = .running ∧ 255 < (start [] 254 resetRegs).pc.toNat + 2 ∧
    (start [] 511 resetRegs).run = .running ∧ 255 < (start [] 511 resetRegs).pc.toNat + 2 := by decide

theorem witness_StepRunsDecodedInstruction :
    ∃ s : State, s = start [0xA0, 0, 1] 253 resetRegs ∧ s.run = .running ∧ s.pc.toNat ≤ 253 ∧
    decode s.params.opcodeMap (s.mem.read s.pc.toNat) (s.mem.read (s.pc.toNat + 1))
      (s.mem.read (s.pc.toNat + 2)) = .instr (.add 0 1) := ⟨_, rfl, by decide⟩

theorem witness_UnknownOpcodeIsReported :
    (∃ (s : State) (op : Byte), s = start [0x83] 253 resetRegs ∧ s.run = .running ∧ s.pc.toNat ≤ 253 ∧
    s.params.opcodeMap.valid = true ∧
      op = s.mem.read s.pc.toNat ∧ op.getLsbD 5 = false ∧ op.getLsbD 4 = false ∧ op ∉ s.params.opcodeMap.bytes) ∧
    (∃ (s : State) (op : Byte), s = start [0x57] 253 resetRegs ∧ s.run = .running ∧ s.pc.toNat ≤ 253 ∧
    s.params.opcodeMap.valid = true ∧
      op = s.mem.read s.pc.toNat ∧ op.getLsbD 5 = false ∧ op.getLsbD 4 = true ∧ op ∉ s.params.opcodeMap.bytes) :=
  ⟨⟨_, 0x83, rfl, by decide⟩, _, 0x57, rfl, by decide⟩

theorem witness_UnsupportedAluByteFaults :
    (∃ (s : State) (op : Byte), s = start [0xE0] 253 resetRegs ∧ s.run = .running ∧ s.pc.toNat ≤ 253 ∧
    s.params.opcodeMap.valid = true ∧
      op = s.mem.read s.pc.toNat ∧ op.getLsbD 5 = true ∧ op ∉ s.params.opcodeMap.bytes) := ⟨_, 0xE0, rfl, by decide⟩

theorem witness_EndedRunsDoNotStep :
    ({ State.reset with run := .halted } : State).run = .halted ∧
    ({ State.reset with run := .faulted .divisionByZero 6 } : State).run = .faulted .divisionByZero 6 := by decide

theorem witness_OnlyHltHalts :
    ∃ t, step (start [0x01] 253 resetRegs) = .next t ∧ t.run = .halted := ⟨_, rfl, rfl⟩

theorem witness_RunningStatesStep :
    State.reset.run = .running := rfl

theorem witness_OnlyCmpWritesFl :
    (∃ t, step (start [0xA7, 0, 1] 0 resetRegs) = .next t ∧ t.fl ≠ (start [0xA7, 0, 1] 0 resetRegs).fl) ∧
    (∃ t, exec (.cmp (BitVec.ofNat 8 (0 : RegIx)) (BitVec.ofNat 8 (7 : RegIx))) State.reset = .next t) ∧
    (∀ a, Instr.add 0 1 ≠ .jeq a ∧ Instr.add 0 1 ≠ .jne a) ∧ ∃ t, exec (.add 0 1) State.reset = .next t :=
  ⟨⟨_, rfl, by decide⟩, ⟨_, rfl⟩, by simp, _, rfl⟩

theorem witness_OnlyPushAndCallWriteMemory :
    (∃ t, step (start [0x45, 7] 0 resetRegs) = .next t ∧ t.mem ≠ (start [0x45, 7] 0 resetRegs).mem) ∧
    (∃ t, step (start [0x50, 7] 0 resetRegs) = .next t ∧ t.mem ≠ (start [0x50, 7] 0 resetRegs).mem) ∧
    Instr.push 7 ≠ .ret ∧ (∀ a, Instr.push 7 ≠ .pop a) ∧ ∃ t, exec (.push 7) State.reset = .next t :=
  ⟨⟨_, rfl, by decide⟩, ⟨_, rfl, by decide⟩, by simp, by simp, _, rfl⟩

theorem witness_LaunchedStatesMeetInvariant :
    ∃ s, State.launch ⟨.faultOverflow, defaultOpcodeMap⟩ [0x01] 255 = .ok s := ⟨_, rfl⟩

/-- At the largest pc a step leaves. -/
theorem witness_StepKeepsInvariant :
    ∃ t, State.Inv (start [0xC0] 253 resetRegs 4) ∧ step (start [0xC0] 253 resetRegs 4) = .next t ∧ t.pc.toNat = 257 :=
  ⟨_, ⟨by decide, by decide, by decide, by decide⟩, rfl, by decide⟩

theorem witness_DecodeOfEncode :
    defaultOpcodeMap.valid = true ∧
    (OpcodeMap.valid { defaultOpcodeMap with inc := 0xA5, dec := 0xA6, not := 0xA9 }) = true := by decide

theorem witness_DecodeIsExact :
    decode defaultOpcodeMap 0xA0 8 9 = .instr (.add 8 9) ∧ (Instr.add 8 9).operands <+: [8, 9] ∧
    decode defaultOpcodeMap 0x65 7 255 = .instr (.inc 7) ∧ (Instr.inc 7).operands <+: [7, 0] := by decide

theorem witness_UnassignedByteClasses :
    (∃ (s : State) (op : Byte), s = start [0xFF] 253 resetRegs ∧ s.run = .running ∧ s.pc.toNat ≤ 253 ∧
    s.params.opcodeMap.valid = true ∧
      op = s.mem.read s.pc.toNat ∧ op.getLsbD 5 = true ∧ op ∉ s.params.opcodeMap.bytes) ∧
    (∃ (s : State) (op : Byte), s = start [0xC0] 253 resetRegs ∧ s.run = .running ∧ s.pc.toNat ≤ 253 ∧
    s.params.opcodeMap.valid = true ∧
      op = s.mem.read s.pc.toNat ∧ op.getLsbD 5 = false ∧ op.getLsbD 4 = false ∧ op ∉ s.params.opcodeMap.bytes) ∧
    (∃ (s : State) (op : Byte), s = start [0xD0] 253 resetRegs ∧ s.run = .running ∧ s.pc.toNat ≤ 253 ∧
    s.params.opcodeMap.valid = true ∧
      op = s.mem.read s.pc.toNat ∧ op.getLsbD 5 = false ∧ op.getLsbD 4 = true ∧ op ∉ s.params.opcodeMap.bytes) :=
  ⟨⟨_, 0xFF, rfl, by decide⟩, ⟨_, 0xC0, rfl, by decide⟩, _, 0xD0, rfl, by decide⟩

theorem witness_PushThenPopRestores :
    (wrap 5 0 0).run = .running ∧ (wrap 5 0 0).params.opcodeMap.valid = true ∧ (wrap 5 0 0).mem.wf = true ∧
    (wrap 5 0 0).params.overflowPolicy = .wrap8 ∧
    (strict 5 0 1).run = .running ∧ (strict 5 0 1).params.opcodeMap.valid = true ∧ (strict 5 0 1).mem.wf = true ∧
    (strict 5 0 1).reg 7 ≠ 0 := by decide

/-- The state after the CALL is itself a state the RET may start from. -/
theorem witness_CallThenRetReturns :
    ∃ s : State, s = start [0x50, 1] 253 (regs 0 9 0 0 1) 0 .faultOverflow ∧ s.run = .running ∧
    s.params.opcodeMap.valid = true ∧ s.mem.wf = true ∧ s.pc.toNat ≤ 253 ∧ s.reg 7 ≠ 0 ∧
    ∃ t r : State, exec (.call (BitVec.ofNat 8 (1 : RegIx))) s = .next t ∧ r.run = .running ∧ r.params = t.params ∧
      r.reg 7 = t.reg 7 ∧ r.mem.read (t.reg 7).toNat = t.mem.read (t.reg 7).toNat :=
  ⟨_, rfl, rfl, by decide, by decide, by decide, by decide, _, _, rfl, rfl, rfl, rfl, rfl⟩

theorem witness_FaultOverflowRunsAreWrapRuns :
    ∃ t, Host.Core.run core 1 ((start [0xA0, 0, 1] 0 (regs 254 1 0 0 0)).withPolicy .faultOverflow) = .next t ∧
    t.reg 0 = 255 ∧ ∀ r p, t.run ≠ .faulted (.overflow r) p :=
  ⟨_, rfl, by decide, fun _ _ h => by cases h⟩

theorem witness_UnreachableCauses :
    (∃ t, step (start [0xA0, 0, 1] 0 (regs 255 1 0 0 0) 0 .faultOverflow) = .next t ∧
      t.run = .faulted (.overflow 256) 0) ∧
    ∃ t, step (start [0xA3, 0, 1] 0 resetRegs) = .next t ∧ t.run = .faulted .divisionByZero 0 :=
  ⟨⟨_, rfl, by decide⟩, _, rfl, rfl⟩

theorem witness_ArithmeticIsExact :
    (wrap 255 1 0).run = .running ∧ (wrap 255 1 0).params.opcodeMap.valid = true ∧
    (Instr.add, (256 : Int)) ∈ [(Instr.add, (((wrap 255 1 0).reg 0).toNat + ((wrap 255 1 0).reg 1).toNat : Int))] ∧
    (wrap 255 1 0).reg 1 ≠ 0 ∧
    (Instr.div, (255 : Int)) ∈ [(Instr.div, (((wrap 255 1 0).reg 0).toNat / ((wrap 255 1 0).reg 1).toNat : Int))] ∧
    (wrap 255 1 0).params.overflowPolicy = .wrap8 ∧ (strict 255 1 0).params.overflowPolicy = .faultOverflow ∧
    (strict 255 1 0).params.opcodeMap.valid = true :=
  ⟨rfl, by decide, List.mem_singleton.mpr rfl, by decide, List.mem_singleton.mpr rfl, rfl, rfl, by decide⟩

theorem witness_LaunchPlacesImage :
    defaultOpcodeMap.valid = true ∧ (List.replicate 256 (1 : Byte)).length ≤ 256 ∧
    256 < (List.replicate 257 (1 : Byte)).length := by
  rw [List.length_replicate, List.length_replicate]; decide

theorem witness_ResetValues :
    ∃ s, State.launch ⟨.faultOverflow, defaultOpcodeMap⟩ [0x01] 255 = .ok s := ⟨_, rfl⟩

theorem witness_WrittenByteIsFetchedNext :
    ∃ s : State, s = start [0x45, 7] 0 (regs 0 0 0 0 254) ∧ s.run = .running ∧ s.params.opcodeMap.valid = true ∧
    s.mem.wf = true ∧
    (∃ t, exec (.push (BitVec.ofNat 8 (7 : RegIx))) s = .next t ∧ t.run = .running ∧ (t.reg 7).toNat = 253) ∧
    ∃ t, exec (.call (BitVec.ofNat 8 (7 : RegIx))) s = .next t ∧ t.run = .running ∧ (t.reg 7).toNat = 253 :=
  ⟨_, rfl, rfl, by decide, by decide, ⟨_, rfl, rfl, by decide⟩, _, rfl, rfl, by decide⟩

theorem witness_RegisterChecksComeFirst :
    (Instr.add 9 8).regOperands.find? (fun b => decide (7 < b.toNat)) = some 9 ∧
    (Instr.add 7 8).regOperands.find? (fun b => decide (7 < b.toNat)) = some 8 ∧
    (Instr.add 7 7).wf = true ∧ ∃ t, State.reset.run = .running ∧ exec (.add 7 7) State.reset = .next t :=
  ⟨by decide, by decide, by decide, _, rfl, rfl⟩

theorem witness_DefaultAdvance :
    State.reset.params.opcodeMap.valid = true ∧ (Instr.ldi 0 1).setsPc = false ∧
    (∃ t, exec (.ldi 0 1) State.reset = .next t ∧ t.run = .running) ∧
    ∃ t, exec .hlt State.reset = .next t ∧ t.run ≠ .running ∧ State.reset.run = .running :=
  ⟨by decide, rfl, ⟨_, rfl, rfl⟩, _, rfl, by decide, rfl⟩

/-- At the last address a jump is fetched from, not taken. -/
theorem witness_ControlTargetsAreBytes :
    ∃ s : State, s = start [0x55, 0] 253 resetRegs ∧ s.params.opcodeMap.valid = true ∧ s.pc.toNat ≤ 253 ∧
    (Instr.jeq 0).setsPc = true ∧ (∃ t, exec (.jeq 0) s = .next t ∧ t.pc.toNat = 255) ∧ ∃ t, step s = .next t :=
  ⟨_, rfl, by decide, by decide, rfl, ⟨_, rfl, by decide⟩, _, rfl⟩

theorem witness_LogsAreWriteOnly :
    (∃ t, step (start [0x47, 7] 0 resetRegs) = .next t ∧ t.out = [0xF4]) ∧
    ∃ t, step (start [0x00] 0 resetRegs) = .next t ∧ t.diag = [⟨0, 0⟩] := ⟨⟨_, rfl, rfl⟩, _, rfl, rfl⟩

theorem witness_OnlyEqualFlagIsRead :
    (0x01 : Byte).getLsbD 0 = (0xFF : Byte).getLsbD 0 ∧ (0x00 : Byte).getLsbD 0 = (0xFE : Byte).getLsbD 0 ∧
    ∃ t, step { start [0x55, 0] 0 resetRegs with fl := 0x01 } = .next t := ⟨by decide, by decide, _, rfl⟩

end Sys2Proof.Tests
end

section
/-! PROOFS. What every step keeps: the invariant, the bounds of the pc, and the launch that meets them. -/

namespace Sys2Proof.Machine

/-! ## What a completed handler does to each field -/

theorem Shape.params_eq {s u : State} {i : Instr} (h : Shape s i u) : u.params = s.params := by
  cases h <;> rfl

/-- A handler that completes leaves the run as it was, but for HLT (R131). -/
theorem Shape.run_cases {s u : State} {i : Instr} (h : Shape s i u) : u.run = s.run ∨ (i = .hlt ∧ u = s.halt) := by
  cases h
  case halted => exact .inr ⟨rfl, rfl⟩
  all_goals exact .inl rfl

/-- FL is written by CMP alone (R29). -/
theorem Shape.fl_cases {s u : State} {i : Instr} (h : Shape s i u) :
    u.fl = s.fl ∨ ∃ a b A B, i = .cmp a b ∧ u.fl = cmpFlags A B := by
  cases h
  case compared r q => exact .inr ⟨_, _, s.reg r, s.reg q, rfl, rfl⟩
  all_goals exact .inl rfl

/-- Memory is rewritten at most at an address a byte gives, so its canonical form stays (R50). -/
theorem Shape.mem_wf {s u : State} {i : Instr} (h : Shape s i u) (hm : s.mem.wf = true) : u.mem.wf = true := by
  cases h
  case pushed | called => exact Memory.wf_write_byte hm _ _
  all_goals exact hm

/-- An instruction that does not set the pc leaves it to the default advance (R27). -/
theorem Shape.pc_eq {s u : State} {i : Instr} (h : Shape s i u) (hi : i.setsPc = false) : u.pc = s.pc := by
  cases h
  case called | returned => cases hi
  case jumped hj | fellThrough hj => rw [hj] at hi; cases hi
  all_goals rfl

theorem zext9_toNat_le (b : Byte) : (zext9 b).toNat ≤ 255 := by
  rw [zext9, BitVec.toNat_setWidth]; omega

/-- Every control transfer lands on a byte: a register, a popped byte, or pc + 2 (R26, R150). -/
theorem Shape.pc_le_of_setsPc {s u : State} {i : Instr} (h : Shape s i u) (hi : i.setsPc = true)
    (hp : s.pc.toNat ≤ 253) : u.pc.toNat ≤ 255 := by
  cases h
  case called | returned | jumped => exact zext9_toNat_le _
  case fellThrough =>
    have h2 : (2 : Pc).toNat = 2 := rfl
    rw [State.fallThrough_pc, BitVec.toNat_add]; omega
  case regWritten hj _ => rw [hj] at hi; cases hi
  all_goals cases hi

/-! ## The end of a step -/

theorem instrLength_le (op : Byte) : instrLength op ≤ 4 := by
  have h := op.isLt
  rw [instrLength, operandCount_eq, classBits]; omega

/-- From a pc whose fetch window is in memory, the default advance reaches at most 257 (R26, R73). -/
theorem State.advance_pc_le {s : State} (hp : s.pc.toNat ≤ 253) (op : Byte) : (s.advance op).pc.toNat ≤ 257 := by
  have hl := instrLength_le op
  rw [State.advance_pc]
  split
  · omega
  · rw [BitVec.toNat_add, BitVec.toNat_ofNat]; omega

/-- An instruction takes its fatal condition, or leaves what its handler leaves in everything but the pc. -/
theorem exec_outcome {i : Instr} {s t : State} (h : exec i s = .next t) :
    (∃ c, handler i s = .error c ∧ t = s.raise c) ∨ (∃ u pc, handler i s = .ok u ∧ t = { u with pc := pc }) := by
  rcases exec_cases h with hc | ⟨u, -, hu, -, rfl⟩ | ⟨u, -, hu, -, rfl⟩
  · exact .inl hc
  · refine .inr ⟨u, (u.advance (opcode s.params.opcodeMap i)).pc, hu, ?_⟩
    unfold State.advance; split <;> rfl
  · exact .inr ⟨t, t.pc, hu, rfl⟩

/-- What fatal conditions, reports, completed handlers and the default advance all give, a step gives. -/
theorem step_keeps {P : State → Prop} {s t : State} (h : step s = .next t) (hraise : ∀ c, P (s.raise c))
    (hreport : ∀ op, P (s.report op)) (hshape : ∀ i u, Shape s i u → P u)
    (hadvance : ∀ op u, P u → P (u.advance op)) : P t := by
  obtain ⟨-, ⟨-, rfl⟩ | ⟨-, ⟨i, -, he⟩ | ⟨op, -, rfl⟩ | ⟨op, -, rfl⟩⟩⟩ := step_cases h
  · exact hraise _
  · rcases exec_cases he with ⟨c, -, rfl⟩ | ⟨u, hu, -, -, rfl⟩ | ⟨u, hu, -, -, rfl⟩
    · exact hraise c
    · exact hadvance _ u (hshape i u hu)
    · exact hshape i t hu
  · exact hadvance op _ (hreport op)
  · exact hraise _

/-! ## The bounds of the pc, and the default advance (R26, R27) -/

/-- From a pc at most 253, an instruction that sets the pc leaves a byte. -/
theorem exec_pc_le_of_setsPc {i : Instr} {s t : State} (hm : s.params.opcodeMap.valid = true) (hp : s.pc.toNat ≤ 253)
    (hi : i.setsPc = true) (h : exec i s = .next t) : t.pc.toNat ≤ 255 := by
  rcases exec_cases h with ⟨c, -, rfl⟩ | ⟨u, hu, -, -, rfl⟩ | ⟨u, hu, -, -, rfl⟩
  · exact Nat.le_trans hp (by decide)
  · rw [advance_opcode_setsPc hm hi]; exact hu.pc_le_of_setsPc hi hp
  · exact hu.pc_le_of_setsPc hi hp

theorem exec_pc_le {i : Instr} {s t : State} (hm : s.params.opcodeMap.valid = true) (hp : s.pc.toNat ≤ 253)
    (h : exec i s = .next t) : t.pc.toNat ≤ 257 := by
  cases hi : i.setsPc
  case true => exact Nat.le_trans (exec_pc_le_of_setsPc hm hp hi h) (by decide)
  case false =>
    rcases exec_cases h with ⟨c, -, rfl⟩ | ⟨u, hu, -, -, rfl⟩ | ⟨u, hu, -, -, rfl⟩
    · exact Nat.le_trans hp (by decide)
    · exact State.advance_pc_le (hu.pc_eq hi ▸ hp) _
    · rw [hu.pc_eq hi]; omega

/-- A step leaves the pc where it was, when it takes OutOfBounds(fetch), or at most 257. -/
theorem step_pc_le {s t : State} (hm : s.params.opcodeMap.valid = true) (hp : s.pc.toNat ≤ 257)
    (h : step s = .next t) : t.pc.toNat ≤ 257 := by
  obtain ⟨-, ⟨-, rfl⟩ | ⟨hw, ⟨i, -, he⟩ | ⟨op, -, rfl⟩ | ⟨op, -, rfl⟩⟩⟩ := step_cases h
  · exact hp
  · exact exec_pc_le hm hw he
  · exact State.advance_pc_le (s := s.report op) hw op
  · exact hp

/-! ## The flag byte of CMP (R182) -/

theorem byte_ne_of_lt {A B : Byte} (h : A.toNat < B.toNat) : A ≠ B :=
  fun e => Nat.ne_of_lt h (congrArg BitVec.toNat e)

theorem cmpFlags_of_lt {A B : Byte} (h : A.toNat < B.toNat) : cmpFlags A B = 0b100 := by
  simp only [cmpFlags, h, Nat.lt_asymm h, byte_ne_of_lt h]; rfl

theorem cmpFlags_of_gt {A B : Byte} (h : B.toNat < A.toNat) : cmpFlags A B = 0b010 := by
  simp only [cmpFlags, h, Nat.lt_asymm h, (byte_ne_of_lt h).symm]; rfl

theorem cmpFlags_self (A : Byte) : cmpFlags A A = 0b001 := by
  simp only [cmpFlags, Nat.lt_irrefl]; rfl

/-- Two bytes are in order, equal, or in reverse order. -/
theorem byte_trichotomy (A B : Byte) : A.toNat < B.toNat ∨ A = B ∨ B.toNat < A.toNat := by
  rcases Nat.lt_trichotomy A.toNat B.toNat with h | h | h
  · exact .inl h
  · exact .inr (.inl (BitVec.eq_of_toNat_eq h))
  · exact .inr (.inr h)

theorem cmpFlags_cases (A B : Byte) : cmpFlags A B = 0b100 ∨ cmpFlags A B = 0b010 ∨ cmpFlags A B = 0b001 := by
  rcases byte_trichotomy A B with h | rfl | h
  · exact .inl (cmpFlags_of_lt h)
  · exact .inr (.inr (cmpFlags_self A))
  · exact .inr (.inl (cmpFlags_of_gt h))

/-- Settles O47: the three orders of two bytes give the three flag bytes. -/
theorem compareIsOneHot : Obligations.CompareIsOneHot := by
  intro A B
  refine ⟨cmpFlags_cases A B, ?_⟩
  rcases byte_trichotomy A B with h | rfl | h
  · rw [cmpFlags_of_lt h, cmpFlags_of_gt h]
    exact ⟨iff_of_false (by decide) (byte_ne_of_lt h), rfl, rfl⟩
  · rw [cmpFlags_self]
    exact ⟨iff_of_true rfl rfl, rfl, rfl⟩
  · rw [cmpFlags_of_lt h, cmpFlags_of_gt h]
    exact ⟨iff_of_false (by decide) (byte_ne_of_lt h).symm, rfl, rfl⟩

/-! ## The invariant -/

theorem step_params {s t : State} (h : step s = .next t) : t.params = s.params :=
  step_keeps (P := fun u => u.params = s.params) h (fun _ => rfl) (fun _ => rfl) (fun _ _ hu => hu.params_eq)
    (fun op u hu => (u.advance_params op).trans hu)

theorem step_mem_wf {s t : State} (hm : s.mem.wf = true) (h : step s = .next t) : t.mem.wf = true :=
  step_keeps (P := fun u => u.mem.wf = true) h (fun _ => hm) (fun _ => hm) (fun _ _ hu => hu.mem_wf hm)
    (fun op u hu => (u.advance_mem op).symm ▸ hu)

/-- A step leaves FL as it was, or a flag byte of CMP. -/
theorem step_fl_cases {s t : State} (h : step s = .next t) : t.fl = s.fl ∨ ∃ A B, t.fl = cmpFlags A B := by
  refine step_keeps (P := fun u => u.fl = s.fl ∨ ∃ A B, u.fl = cmpFlags A B) h (fun _ => .inl rfl) (fun _ => .inl rfl)
    (fun i u hu => ?_) (fun op u hu => (u.advance_fl op).symm ▸ hu)
  rcases hu.fl_cases with hf | ⟨-, -, A, B, -, hf⟩
  · exact .inl hf
  · exact .inr ⟨A, B, hf⟩

/-- Settles O39: each of the four parts of the invariant by its own step lemma. -/
theorem stepKeepsInvariant : Obligations.StepKeepsInvariant := by
  intro s t ⟨hmem, hmap, hpc, hfl⟩ h
  have hparams := step_params h
  refine ⟨⟨step_mem_wf hmem h, hparams ▸ hmap, step_pc_le hmap hpc h, ?_⟩, hparams⟩
  rcases step_fl_cases h with hf | ⟨A, B, hf⟩ <;> rw [hf]
  · exact hfl
  · rcases cmpFlags_cases A B with hc | hc | hc <;> simp [hc]

/-- Settles O55: a handler that does not set the pc leaves it, so it moves by the advance alone. -/
theorem defaultAdvance : Obligations.DefaultAdvance := by
  intro i s t hm h
  rcases exec_cases h with ⟨c, -, rfl⟩ | ⟨u, hu, -, hrun, rfl⟩ | ⟨u, hu, -, hrun, rfl⟩
  · exact ⟨nofun, fun _ _ => rfl⟩
  · refine ⟨fun hi _ => ?_, fun ht => absurd ((State.advance_run ..).trans hrun) ht⟩
    rw [advance_opcode_open hm hi, hu.pc_eq hi]
  · refine ⟨fun _ ht => absurd ht hrun, fun _ hs => ?_⟩
    rcases hu.run_cases with he | ⟨-, rfl⟩
    · exact absurd (he.trans hs) hrun
    · rfl

/-- Settles O56: a control transfer's target is a byte, and any other step advances by at most 4. -/
theorem controlTargetsAreBytes : Obligations.ControlTargetsAreBytes :=
  ⟨fun _ _ _ hm hp hi h => exec_pc_le_of_setsPc hm hp hi h,
    fun _ _ hm hp h => step_pc_le hm (Nat.le_trans hp (by decide)) h⟩

/-! ## Reset and launch (R37, R243) -/

theorem defaultOpcodeMap_valid : defaultOpcodeMap.valid = true := by decide

theorem create_inv {p : Params} (hm : p.opcodeMap.valid = true) (entry : Byte) : (State.create p entry).Inv where
  memory := Memory.wf_nil
  opcodes := hm
  pcBound := Nat.le_trans (zext9_toNat_le entry) (by decide)
  flags := .inl rfl

/-- A launch that is not refused loads an image that fits into the created state, under a valid map. -/
theorem launch_ok {p : Params} {image : List Byte} {entry : Byte} {s : State} (h : State.launch p image entry = .ok s) :
    image.length ≤ 256 ∧ p.opcodeMap.valid = true ∧ s = (State.create p entry).load image := by
  unfold State.launch at h
  split at h
  · cases h
  · split at h
    · injection h with h; exact ⟨by omega, ‹_›, h.symm⟩
    · cases h

/-- Loading an image that fits keeps the invariant. -/
theorem load_inv {s : State} {image : List Byte} (hs : s.Inv) (hl : image.length ≤ 256) : (s.load image).Inv where
  memory := Memory.wf_place hs.memory image (by omega)
  opcodes := hs.opcodes
  pcBound := hs.pcBound
  flags := hs.flags

/-- Settles O38: creation meets the invariant, and loading an image that fits keeps it. -/
theorem launchedStatesMeetInvariant : Obligations.LaunchedStatesMeetInvariant := by
  refine ⟨create_inv defaultOpcodeMap_valid _, fun p image entry s h => ?_⟩
  obtain ⟨hl, hm, rfl⟩ := launch_ok h
  exact load_inv (create_inv hm entry) hl

/-- Settles O52: the fields of the created state, which loading leaves but for memory. -/
theorem resetValues : Obligations.ResetValues := by
  refine ⟨Memory.read_nil, by decide, rfl, rfl, rfl, rfl, rfl, rfl, rfl, fun p image entry s h => ?_⟩
  obtain ⟨-, -, rfl⟩ := launch_ok h
  exact ⟨rfl, rfl, rfl, rfl, rfl, rfl, rfl⟩

end Sys2Proof.Machine
end

section
/-! PROOFS. What each kind of instruction leaves unchanged. -/

namespace Sys2Proof

/-- LDI and the ALU instructions but CMP: the ones that write the register their first operand names (R132, R170). -/
def Instr.writesReg : Instr → Bool
  | .ldi _ _ => true
  | .cmp _ _ => false
  | i => i.aluClass

theorem Instr.setsPc_of_writesReg {i : Instr} (hi : i.writesReg = true) : i.setsPc = false := by
  revert hi
  cases i <;> simp [Instr.writesReg, Instr.aluClass, Instr.setsPc]

end Sys2Proof

namespace Sys2Proof.Machine

/-! ## What the handlers of each kind answer when they complete -/

/-- A register writer that completes has written one register, the one its first operand names. -/
theorem handler_writesReg_ok {s u : State} {i : Instr} (hi : i.writesReg = true) (h : handler i s = .ok u) :
    ∃ r : RegIx, ∃ v, i.operands.head? = some (BitVec.ofNat 8 r.val) ∧ u = s.setReg r v := by
  cases handler_shape h
  case regWritten r v hr _ _ => exact ⟨r, v, hr, rfl⟩
  case jumped hj | fellThrough hj => rw [Instr.setsPc_of_writesReg hi] at hj; cases hj
  all_goals cases hi

/-- HLT has its next state from every state, and no advance follows (R131). -/
theorem exec_hlt (s : State) : exec .hlt s = .next s.halt :=
  (exec_eq_conclude .hlt s).trans (State.conclude_ended _ nofun)

/-- PRN that completes has emitted one register (R133). -/
theorem handler_prn_ok {s u : State} {a : Byte} (h : handler (.prn a) s = .ok u) : ∃ r, u = s.emit (s.reg r) := by
  obtain ⟨r, -, h⟩ := withReg_ok h
  injection h with h; exact ⟨r, h.symm⟩

/-- CMP that completes has written FL (R182). -/
theorem handler_cmp_ok {s u : State} {a b : Byte} (h : handler (.cmp a b) s = .ok u) : ∃ v, u = s.setFl v := by
  obtain ⟨r, q, -, -, h⟩ := withRegs_ok h
  injection h with h; exact ⟨_, h.symm⟩

/-- JMP, JEQ and JNE that complete have written the pc alone (R153 to R155). -/
theorem handler_jump_ok {s u : State} {a : Byte} {i : Instr} (hi : i ∈ [.jmp a, .jeq a, .jne a])
    (h : handler i s = .ok u) : ∃ pc, u = { s with pc := pc } := by
  have hs : i.setsPc = true := by
    simp only [List.mem_cons, List.not_mem_nil, or_false] at hi
    rcases hi with rfl | rfl | rfl <;> rfl
  cases handler_shape h
  case jumped | fellThrough => exact ⟨_, rfl⟩
  case called | returned => simp at hi
  case regWritten hj _ => rw [hs] at hj; cases hj
  all_goals cases hs

theorem decSp_of_pushByte_ok {s u : State} {f : State → Byte} (h : s.pushByte f = .ok u) :
    s.decSp = .ok (s.setReg spIx (s.reg spIx - 1)) := by
  cases hd : s.decSp with
  | ok d => rw [(State.decSp_ok hd).1]
  | error c =>
    obtain ⟨hp, h0, -⟩ := State.decSp_error hd
    exact absurd h0 ((State.pushByte_ok h).2 hp)

/-- PUSH and CALL that complete have pushed one byte at the decremented SP and, CALL, written the pc (R140, R151). -/
theorem handler_store_ok {s u : State} {a : Byte} {i : Instr} (hi : i ∈ [.push a, .call a]) (h : handler i s = .ok u) :
    (∃ f pc, u = { s.pushed f with pc := pc }) ∧ s.decSp = .ok (s.setReg spIx (s.reg spIx - 1)) := by
  simp only [List.mem_cons, List.not_mem_nil, or_false] at hi
  rcases hi with rfl | rfl
  · obtain ⟨r, -, h⟩ := withReg_ok h
    obtain ⟨rfl, -⟩ := State.pushByte_ok h
    exact ⟨⟨fun t => t.reg r, s.pc, rfl⟩, decSp_of_pushByte_ok h⟩
  · obtain ⟨r, -, h⟩ := withReg_ok h
    split at h
    · cases h
    · rename_i hw
      obtain ⟨rfl, -⟩ := State.pushByte_ok hw
      injection h with h
      exact ⟨⟨_, _, h.symm⟩, decSp_of_pushByte_ok hw⟩

/-- POP and RET that complete have written SP and, POP, the register its operand names, or, RET, the pc (R141, R152). -/
theorem handler_load_ok {s u : State} {a : Byte} {i : Instr} (hi : i ∈ [.pop a, .ret]) (h : handler i s = .ok u) :
    ∃ v w, (∃ r : RegIx, i = .pop a ∧ a = BitVec.ofNat 8 r.val ∧ u = (s.setReg r w).setReg spIx v) ∨
      u = (s.setPc w).setReg spIx v := by
  simp only [List.mem_cons, List.not_mem_nil, or_false] at hi
  rcases hi with rfl | rfl
  · obtain ⟨r, ha, h⟩ := withReg_ok h
    rw [State.popByte_eq] at h
    exact ⟨_, _, .inl ⟨r, rfl, ha, (State.incSp_ok h).1⟩⟩
  · exact ⟨_, _, .inr (State.incSp_ok ((State.popByte_eq s fun v t => t.setPc v).symm.trans h)).1⟩

/-! ## Frames -/

/-- A register that an operand byte does not name. -/
theorem regIx_ne_of_val_ne {q r : RegIx} (h : q.val ≠ (BitVec.ofNat 8 r.val).toNat) : r ≠ q := by
  rintro rfl
  exact h (toNat_ofNat_regIx r).symm

/-- Settles O23: a completed register writer has written the one register its first operand names. -/
theorem registerWritersFrame : Obligations.RegisterWritersFrame := by
  intro s t a b i hi h
  obtain ⟨hw, ha⟩ : i.writesReg = true ∧ i.operands.head? = some a := by
    simp only [List.mem_cons, List.not_mem_nil, or_false] at hi
    rcases hi with rfl | rfl | rfl | rfl | rfl | rfl | rfl | rfl | rfl | rfl | rfl | rfl | rfl | rfl <;> exact ⟨rfl, rfl⟩
  rcases exec_outcome h with ⟨c, -, rfl⟩ | ⟨u, pc, hu, rfl⟩
  · exact ⟨fun _ _ => rfl, rfl, fun _ => rfl, rfl, rfl, rfl, .inr ⟨c, rfl⟩⟩
  · obtain ⟨r, v, hr, rfl⟩ := handler_writesReg_ok hw hu
    obtain rfl : a = BitVec.ofNat 8 r.val := Option.some.inj (ha.symm.trans hr)
    exact ⟨fun q hq => s.reg_setReg_ne v (regIx_ne_of_val_ne hq), rfl, fun _ => rfl, rfl, rfl, rfl, .inl rfl⟩

/-- Settles O24: a completed CMP has written FL alone, and the pc. -/
theorem cmpFrame : Obligations.CmpFrame := by
  intro s t a b h
  rcases exec_outcome h with ⟨c, -, rfl⟩ | ⟨u, pc, hu, rfl⟩
  · exact ⟨fun _ => rfl, fun _ => rfl, rfl, rfl, rfl, .inr ⟨c, rfl⟩⟩
  · obtain ⟨v, rfl⟩ := handler_cmp_ok hu
    exact ⟨fun _ => rfl, fun _ => rfl, rfl, rfl, rfl, .inl rfl⟩

/-- Settles O25: a completed jump has written the pc alone, PRN the output log and the pc, HLT the run. -/
theorem jumpOutputHaltFrame : Obligations.JumpOutputHaltFrame := by
  intro s t a i hi h
  have hi' : i ∈ [.jmp a, .jeq a, .jne a] ∨ i = .prn a ∨ i = .hlt := by
    simp only [List.mem_cons, List.not_mem_nil, or_false] at hi ⊢
    tauto
  rcases exec_outcome h with ⟨c, -, rfl⟩ | ⟨u, pc, hu, rfl⟩
  · exact ⟨fun _ => rfl, rfl, fun _ => rfl, rfl, rfl, fun _ => rfl, .inr (.inr ⟨c, rfl⟩)⟩
  · rcases hi' with hj | rfl | rfl
    · obtain ⟨pc', rfl⟩ := handler_jump_ok hj hu
      exact ⟨fun _ => rfl, rfl, fun _ => rfl, rfl, rfl, fun _ => rfl, .inl rfl⟩
    · obtain ⟨r, rfl⟩ := handler_prn_ok hu
      exact ⟨fun _ => rfl, rfl, fun _ => rfl, rfl, rfl, fun hne => absurd rfl hne, .inl rfl⟩
    · rw [Host.Outcome.next.inj (h.symm.trans (exec_hlt s))]
      exact ⟨fun _ => rfl, rfl, fun _ => rfl, rfl, rfl, fun _ => rfl, .inr (.inl ⟨rfl, rfl⟩)⟩

/-- Settles O26: a completed PUSH or CALL has written SP, the pc and the cell at the decremented SP. -/
theorem stackStoresFrame : Obligations.StackStoresFrame := by
  intro s t a i hi h
  rcases exec_outcome h with ⟨c, -, rfl⟩ | ⟨u, pc, hu, rfl⟩
  · exact ⟨fun _ _ => rfl, rfl, rfl, rfl, rfl, fun _ _ _ _ => rfl, fun _ _ _ => rfl, .inr ⟨c, rfl⟩⟩
  · obtain ⟨⟨f, pc', rfl⟩, hdec⟩ := handler_store_ok hi hu
    refine ⟨fun r hr => s.reg_setReg_ne _ (Ne.symm hr), rfl, rfl, rfl, rfl, fun d hd k hk => ?_,
      fun c hc => ?_, .inl rfl⟩
    · rw [(State.decSp_ok hd).1, State.reg_setReg_self] at hk
      exact Memory.read_write_of_ne s.mem _ hk
    · rw [hdec] at hc; cases hc

/-- Settles O27: a completed POP or RET has written SP, the pc and, POP, the register its operand names. -/
theorem stackLoadsFrame : Obligations.StackLoadsFrame := by
  intro s t a i hi h
  rcases exec_outcome h with ⟨c, -, rfl⟩ | ⟨u, pc, hu, rfl⟩
  · exact ⟨fun _ _ _ => rfl, rfl, fun _ => rfl, rfl, rfl, rfl, .inr ⟨c, rfl⟩⟩
  · obtain ⟨v, w, ⟨r, rfl, rfl, rfl⟩ | rfl⟩ := handler_load_ok hi hu
    · refine ⟨fun q hsp hq => ?_, rfl, fun _ => rfl, rfl, rfl, rfl, .inl rfl⟩
      exact ((s.setReg r w).reg_setReg_ne v (Ne.symm hsp)).trans (s.reg_setReg_ne w (regIx_ne_of_val_ne (hq rfl)))
    · exact ⟨fun q hsp _ => (s.setPc w).reg_setReg_ne v (Ne.symm hsp), rfl, fun _ => rfl, rfl, rfl, rfl, .inl rfl⟩

end Sys2Proof.Machine
end

section
/-! PROOFS. What no step depends on: the logs, and FL but for its bit 0. -/

namespace Sys2Proof.Machine

/-! ## A change of the state that the handlers carry through -/

/-- A change of the state in fields the machine only writes: it keeps what a step reads, and every write commutes with it.
FL is left out, because CMP writes it and JEQ and JNE read it. -/
structure WriteOnly (g : State → State) : Prop where
  mem : ∀ s, (g s).mem = s.mem
  x : ∀ s, (g s).x = s.x
  pc : ∀ s, (g s).pc = s.pc
  run : ∀ s, (g s).run = s.run
  params : ∀ s, (g s).params = s.params
  setReg : ∀ s i v, (g s).setReg i v = g (s.setReg i v)
  setMem : ∀ s m, { g s with mem := m } = g { s with mem := m }
  setPc : ∀ s p, { g s with pc := p } = g { s with pc := p }
  setRun : ∀ s r, { g s with run := r } = g { s with run := r }
  emit : ∀ s v, (g s).emit v = g (s.emit v)
  report : ∀ s op, (g s).report op = g (s.report op)

namespace WriteOnly

variable {g : State → State} (hg : WriteOnly g) (s : State)
include hg

theorem reg_eq (i : RegIx) : (g s).reg i = s.reg i := State.reg_congr (hg.x s) i

theorem fit8_eq : (g s).fit8 = s.fit8 := by
  funext r; rw [State.fit8, State.fit8, hg.params]

theorem raise_map (c : Cause) : (g s).raise c = g (s.raise c) :=
  (hg.setRun s _).trans (by rw [hg.pc]; rfl)

theorem advance_map (op : Byte) : (g s).advance op = g (s.advance op) := by
  rw [State.advance, State.advance, hg.pc, hg.setPc]; split <;> rfl

theorem pushed_map {f f' : State → Byte} (hf : ∀ v, f' (g (s.setReg spIx v)) = f (s.setReg spIx v)) :
    (g s).pushed f' = g (s.pushed f) := by
  simp only [State.pushed, hg.reg_eq, hg.mem, hg.setReg, hg.setMem, hf]

theorem pushByte_map {f f' : State → Byte} (hf : ∀ v, f' (g (s.setReg spIx v)) = f (s.setReg spIx v)) :
    (g s).pushByte f' = mapOk g (s.pushByte f) :=
  Machine.pushByte_map g s (g s) f f' (hg.params s) (hg.reg_eq s spIx) (hg.pushed_map s hf)

theorem incSp_map : (g s).incSp = mapOk g s.incSp :=
  Machine.incSp_map g s (g s) (hg.params s) (hg.reg_eq s spIx) (hg.setReg s spIx)

theorem popByte_map {d : Byte → State → State} (hd : ∀ v, d v (g s) = g (d v s)) :
    (g s).popByte d = mapOk g (s.popByte d) := by
  rw [State.popByte_eq, State.popByte_eq, hg.mem, hg.reg_eq, hd, hg.incSp_map]

/-- A handler carries the change through to its answer, where CMP's write of FL and JEQ's and JNE's read of E do. -/
theorem handler_map (i : Instr) (hcmp : ∀ a b, i = .cmp a b → ∀ v, (g s).setFl v = g (s.setFl v))
    (hflag : ∀ a, i = .jeq a ∨ i = .jne a → (g s).equalFlag = s.equalFlag) :
    handler i (g s) = mapOk g (handler i s) := by
  have jump : ∀ v, (g s).setPc v = g (s.setPc v) := fun v => hg.setPc s _
  have fall : (g s).fallThrough = g s.fallThrough := by
    rw [State.fallThrough, hg.pc, hg.setPc]; rfl
  cases i <;> simp only [handler]
  case hlt => exact congrArg Except.ok (hg.setRun s _)
  case ret => exact hg.popByte_map s jump
  case push a => exact withReg_map g a fun r => hg.pushByte_map s fun v => hg.reg_eq _ r
  case pop a => exact withReg_map g a fun r => hg.popByte_map s (hg.setReg s r)
  case prn a => exact withReg_map g a fun r => by rw [hg.reg_eq, hg.emit]; rfl
  case call a =>
    refine withReg_map g a fun r => ?_
    rw [hg.pushByte_map s (f := fun _ => s.returnAddress) fun v => by rw [State.returnAddress, hg.pc]; rfl]
    cases s.pushByte fun _ => s.returnAddress with
    | error c => rfl
    | ok u => exact congrArg Except.ok (by rw [hg.reg_eq]; exact hg.setPc u _)
  case jmp a => exact withReg_map g a fun r => by rw [hg.reg_eq, jump]; rfl
  case jeq a =>
    refine withReg_map g a fun r => ?_
    rw [hflag a (.inl rfl), hg.reg_eq, jump, fall]
    split <;> rfl
  case jne a =>
    refine withReg_map g a fun r => ?_
    rw [hflag a (.inr rfl), hg.reg_eq, jump, fall]
    split <;> rfl
  case ldi a b => exact withReg_map g a fun r => by rw [hg.setReg]; rfl
  case cmp a b => exact withRegs_map g a b fun r q => by rw [hg.reg_eq, hg.reg_eq, hcmp a b rfl]; rfl
  case inc a | dec a | not a => rw [hg.fit8_eq]; exact alu1_map g s (g s) a _ (hg.reg_eq s) (hg.setReg s)
  case add a b | sub a b | mul a b | shl a b =>
    rw [hg.fit8_eq]; exact alu2_map g s (g s) a b _ (hg.reg_eq s) (hg.setReg s)
  all_goals exact alu2_map g s (g s) _ _ _ (hg.reg_eq s) (hg.setReg s)

/-- So does the whole meaning of an instruction. -/
theorem exec_map {i : Instr} {t : State} (hcmp : ∀ a b, i = .cmp a b → ∀ v, (g s).setFl v = g (s.setFl v))
    (hflag : ∀ a, i = .jeq a ∨ i = .jne a → (g s).equalFlag = s.equalFlag) (h : exec i s = .next t) :
    exec i (g s) = .next (g t) := by
  rw [exec_eq_conclude] at h ⊢
  rw [hg.params, hg.handler_map s i hcmp hflag]
  obtain ⟨t', ht', rfl⟩ := conclude_rel (fun u u' => u' = g u) (s' := g s) (r' := mapOk g (handler i s))
    (fun c hc => ⟨by rw [hc]; rfl, hg.raise_map s c⟩)
    (fun u hu => ⟨g u, by rw [hu]; rfl, hg.run u, rfl, hg.advance_map u _⟩) h
  exact ht'

end WriteOnly

/-- Two states that fetch and decode the same, under a relation that their reports, fatal conditions and instructions give,
have related next states. -/
theorem step_rel (G : State → State → Prop) {s s' t : State} (hmem : s'.mem = s.mem) (hpc : s'.pc = s.pc)
    (hrun : s'.run = s.run) (hmap : s'.params.opcodeMap = s.params.opcodeMap)
    (hraise : ∀ c, G (s.raise c) (s'.raise c))
    (hreport : ∀ op, G ((s.report op).advance op) ((s'.report op).advance op))
    (hexec : ∀ i, exec i s = .next t → ∃ t', exec i s' = .next t' ∧ G t t') (h : step s = .next t) :
    ∃ t', step s' = .next t' ∧ G t t' := by
  obtain ⟨hr, ⟨hp, rfl⟩ | ⟨hp, hcase⟩⟩ := step_cases h
  · refine ⟨_, ?_, hraise _⟩
    rw [step, hrun, hr]
    simp only [stepRunning, State.fetch_outOfBounds (hpc ▸ hp)]
  · rw [step_window (hrun.trans hr) (hpc ▸ hp), hmap, hmem, hpc]
    obtain ⟨i, hd, he⟩ | ⟨op, hd, rfl⟩ | ⟨op, hd, rfl⟩ := hcase <;> rw [hd]
    · exact hexec i he
    · exact ⟨_, rfl, hreport op⟩
    · exact ⟨_, rfl, hraise _⟩

/-! ## The logs -/

/-- The state with bytes and reports put before its logs. -/
def State.prependLogs (o : List Byte) (d : List Report) (s : State) : State :=
  { s with out := o ++ s.out, diag := d ++ s.diag }

theorem prependLogs_writeOnly (o : List Byte) (d : List Report) : WriteOnly (State.prependLogs o d) where
  mem _ := rfl
  x _ := rfl
  pc _ := rfl
  run _ := rfl
  params _ := rfl
  setReg _ _ _ := rfl
  setMem _ _ := rfl
  setPc _ _ := rfl
  setRun _ _ := rfl
  emit s v := by simp [State.prependLogs, State.emit]
  report s op := by simp [State.prependLogs, State.report]

theorem step_prependLogs {s t : State} (o : List Byte) (d : List Report) (h : step s = .next t) :
    step (s.prependLogs o d) = .next (t.prependLogs o d) := by
  have hg := prependLogs_writeOnly o d
  obtain ⟨t', ht', rfl⟩ := step_rel (fun u u' => u' = u.prependLogs o d) (s := s) (s' := s.prependLogs o d)
    rfl rfl rfl rfl (hg.raise_map s) (fun op => by rw [hg.report, hg.advance_map])
    (fun i hi => ⟨_, hg.exec_map s (fun _ _ _ _ => rfl) (fun _ _ => rfl) hi, rfl⟩) h
  exact ht'

/-- A handler only appends to the output log, and leaves the diagnostic log. -/
theorem Shape.logs {s u : State} {i : Instr} (h : Shape s i u) : s.out <+: u.out ∧ u.diag = s.diag := by
  cases h
  case emitted r => exact ⟨List.prefix_append _ _, rfl⟩
  all_goals exact ⟨List.prefix_rfl, rfl⟩

theorem step_logs_grow {s t : State} (h : step s = .next t) : s.out <+: t.out ∧ s.diag <+: t.diag :=
  step_keeps (P := fun u => s.out <+: u.out ∧ s.diag <+: u.diag) h (fun _ => ⟨List.prefix_rfl, List.prefix_rfl⟩)
    (fun _ => ⟨List.prefix_rfl, List.prefix_append _ _⟩) (fun _ _ hu => ⟨hu.logs.1, hu.logs.2 ▸ List.prefix_rfl⟩)
    (fun op u hu => by rwa [State.advance_out, State.advance_diag])

/-- Settles O57: a step carries longer logs through, and what it writes to a log it appends. -/
theorem logsAreWriteOnly : Obligations.LogsAreWriteOnly :=
  fun _ _ o d h => ⟨step_prependLogs o d h, step_logs_grow h⟩

/-! ## FL -/

theorem setFl_writeOnly (f : Byte) : WriteOnly fun s => s.setFl f where
  mem _ := rfl
  x _ := rfl
  pc _ := rfl
  run _ := rfl
  params _ := rfl
  setReg _ _ _ := rfl
  setMem _ _ := rfl
  setPc _ _ := rfl
  setRun _ _ := rfl
  emit _ _ := rfl
  report _ _ := rfl

/-- What becomes of FL value `f` when a state with FL `f₀` and the next state `t` takes it instead: it is overwritten, or
carried through where `t` still has `f₀`. -/
def FlCarried (f₀ f : Byte) (t u : State) : Prop := u = t ∨ (u = t.setFl f ∧ t.fl = f₀)

theorem FlCarried.setFl_eq {f₀ f : Byte} {t u : State} (h : FlCarried f₀ f t u) : u.setFl t.fl = t := by
  rcases h with rfl | ⟨rfl, -⟩ <;> rfl

theorem FlCarried.equalFlag_eq {f₀ f : Byte} {t u : State} (h : FlCarried f₀ f t u) (hf : f.getLsbD 0 = f₀.getLsbD 0) :
    u.fl.getLsbD 0 = t.fl.getLsbD 0 := by
  rcases h with rfl | ⟨rfl, ht⟩
  · rfl
  · rw [ht]; exact hf

/-- An instruction but CMP leaves FL (R29). -/
theorem exec_fl_eq {i : Instr} {s t : State} (hi : ∀ a b, i ≠ .cmp a b) (h : exec i s = .next t) : t.fl = s.fl := by
  rcases exec_outcome h with ⟨c, -, rfl⟩ | ⟨u, pc, hu, rfl⟩
  · rfl
  · rcases (handler_shape hu).fl_cases with hf | ⟨a, b, -, -, hc, -⟩
    · exact hf
    · exact absurd hc (hi a b)

/-- Under another FL an instruction that does not read E, or reads the same E, does the same to everything but FL. -/
theorem exec_setFl {i : Instr} {s t : State} {f : Byte}
    (hflag : ∀ a, i = .jeq a ∨ i = .jne a → f.getLsbD 0 = s.fl.getLsbD 0) (h : exec i s = .next t) :
    ∃ u, exec i (s.setFl f) = .next u ∧ FlCarried s.fl f t u := by
  by_cases hi : ∃ a b, i = .cmp a b
  · obtain ⟨a, b, rfl⟩ := hi
    rw [exec_eq_conclude] at h ⊢
    exact conclude_rel (FlCarried s.fl f) (fun c hc => ⟨hc, .inr ⟨rfl, rfl⟩⟩)
      (fun u hu => ⟨u, hu, rfl, .inl rfl, .inl rfl⟩) h
  · have hi : ∀ a b, i ≠ .cmp a b := fun a b e => hi ⟨a, b, e⟩
    exact ⟨_, (setFl_writeOnly f).exec_map s (fun a b e => absurd e (hi a b)) hflag h, .inr ⟨rfl, exec_fl_eq hi h⟩⟩

/-- A step under another FL with the same E does the same to everything but FL. -/
theorem step_setFl {s t : State} {f : Byte} (hf : f.getLsbD 0 = s.fl.getLsbD 0) (h : step s = .next t) :
    ∃ u, step (s.setFl f) = .next u ∧ FlCarried s.fl f t u :=
  step_rel (FlCarried s.fl f) (s := s) rfl rfl rfl rfl (fun _ => .inr ⟨rfl, rfl⟩)
    (fun op => .inr ⟨(setFl_writeOnly f).advance_map (s.report op) op, State.advance_fl ..⟩)
    (fun _ he => exec_setFl (fun _ _ => hf) he) h

/-- A step that changes FL runs a CMP. -/
theorem decode_cmp_of_fl_ne {s t : State} (h : step s = .next t) (hfl : t.fl ≠ s.fl) : ∃ a b : Byte,
    decode s.params.opcodeMap (s.mem.read s.pc.toNat) (s.mem.read (s.pc.toNat + 1)) (s.mem.read (s.pc.toNat + 2)) =
      .instr (.cmp a b) := by
  obtain ⟨-, ⟨-, rfl⟩ | ⟨-, ⟨i, hd, he⟩ | ⟨op, -, rfl⟩ | ⟨op, -, rfl⟩⟩⟩ := step_cases h
  · exact absurd rfl hfl
  · by_contra hc
    exact hfl (exec_fl_eq (fun a b e => hc ⟨a, b, e ▸ hd⟩) he)
  · exact absurd (State.advance_fl ..) hfl
  · exact absurd rfl hfl

theorem flagByte_bits : ∀ l g e : Bool, (flagByte l g e).toNat < 8 ∧ (flagByte l g e).getLsbD 2 = l ∧
    (flagByte l g e).getLsbD 1 = g ∧ (flagByte l g e).getLsbD 0 = e := by decide

/-- CMP of two registers writes their flag byte. -/
theorem exec_cmp_fl {s t : State} {i j : RegIx} (h : exec (.cmp (BitVec.ofNat 8 i) (BitVec.ofNat 8 j)) s = .next t) :
    t.fl = cmpFlags (s.reg i) (s.reg j) := by
  have hok : handler (.cmp (BitVec.ofNat 8 i) (BitVec.ofNat 8 j)) s = .ok (s.setFl (cmpFlags (s.reg i) (s.reg j))) :=
    withRegs_ofNat i j _
  rcases exec_outcome h with ⟨c, hc, -⟩ | ⟨u, pc, hu, rfl⟩
  · rw [hok] at hc; cases hc
  · rw [hok] at hu; injection hu with hu; subst hu; rfl

/-- Settles O36: a step that changes FL runs a CMP, whose flag byte has its three flags in bits 2 to 0, and an instruction
that reads no flag carries FL through. -/
theorem onlyCmpWritesFl : Obligations.OnlyCmpWritesFl := by
  refine ⟨fun s t h hfl => decode_cmp_of_fl_ne h hfl, fun s t i j h => ?_, fun i s t f hi h => ?_⟩
  · rw [exec_cmp_fl h]; exact flagByte_bits _ _ _
  · obtain ⟨u, hu, hrel⟩ := exec_setFl (f := f) (fun a e => absurd e (not_or.mpr (hi a))) h
    exact ⟨u, hu, hrel.setFl_eq⟩

/-- Settles O58: of FL only E is read, and E is carried through or overwritten. -/
theorem onlyEqualFlagIsRead : Obligations.OnlyEqualFlagIsRead := by
  refine ⟨fun s t f g hfg h => ?_, fun _ _ => rfl⟩
  obtain ⟨u, hu, hrel⟩ := step_setFl (s := s.setFl f) hfg.symm h
  exact ⟨u, hu, hrel.setFl_eq, hrel.equalFlag_eq hfg.symm⟩

end Sys2Proof.Machine
end

section
/-! PROOFS. Memory: which step runs what is fetched, who writes memory and reads it, and which fatal conditions are reached. -/

namespace Sys2Proof.Machine

/-! ## Fetch (R56) -/

/-- A step whose fetch window leaves memory takes OutOfBounds(fetch). -/
theorem step_outOfBounds {s : State} (hr : s.run = .running) (h : 253 < s.pc.toNat) :
    step s = .next (s.raise .outOfBoundsFetch) := by
  rw [step, hr]
  simp only [stepRunning, State.fetch_outOfBounds h]

/-- Settles O29: the window is checked before any byte is looked at. -/
theorem fetchOutsideMemoryFaults : Obligations.FetchOutsideMemoryFaults :=
  fun _ hr hp => step_outOfBounds hr (by omega)

/-- Settles O30: a step does what its window decodes to, which for an instruction is its meaning. -/
theorem stepRunsDecodedInstruction : Obligations.StepRunsDecodedInstruction := by
  intro s i hr hp hd
  rw [step_window hr hp, hd]
  rfl

/-! ## Who writes memory (R51) -/

/-- A handler but PUSH's and CALL's leaves memory. -/
theorem Shape.mem_eq {s u : State} {i : Instr} (h : Shape s i u) (hi : ∀ a, i ≠ .push a ∧ i ≠ .call a) :
    u.mem = s.mem := by
  cases h
  case pushed r => exact absurd rfl (hi _).1
  case called r => exact absurd rfl (hi _).2
  all_goals rfl

/-- So does its whole meaning. -/
theorem exec_mem_eq {i : Instr} {s t : State} (hi : ∀ a, i ≠ .push a ∧ i ≠ .call a) (h : exec i s = .next t) :
    t.mem = s.mem := by
  rcases exec_outcome h with ⟨c, -, rfl⟩ | ⟨u, pc, hu, rfl⟩
  · rfl
  · exact (handler_shape hu).mem_eq hi

/-- A step that changes memory runs a PUSH or a CALL. -/
theorem decode_store_of_mem_ne {s t : State} (h : step s = .next t) (hmem : t.mem ≠ s.mem) : ∃ a : Byte,
    decode s.params.opcodeMap (s.mem.read s.pc.toNat) (s.mem.read (s.pc.toNat + 1)) (s.mem.read (s.pc.toNat + 2)) =
      .instr (.push a) ∨
    decode s.params.opcodeMap (s.mem.read s.pc.toNat) (s.mem.read (s.pc.toNat + 1)) (s.mem.read (s.pc.toNat + 2)) =
      .instr (.call a) := by
  obtain ⟨-, ⟨-, rfl⟩ | ⟨-, ⟨i, hd, he⟩ | ⟨op, -, rfl⟩ | ⟨op, -, rfl⟩⟩⟩ := step_cases h
  · exact absurd rfl hmem
  · by_contra hc
    exact hmem (exec_mem_eq (fun a => ⟨fun e => hc ⟨a, .inl (e ▸ hd)⟩, fun e => hc ⟨a, .inr (e ▸ hd)⟩⟩) he)
  · exact absurd (State.advance_mem ..) hmem
  · exact absurd rfl hmem

/-! ## Who reads memory (R51) -/

/-- The state with another memory. -/
def State.withMem (m : Memory) (s : State) : State := { s with mem := m }

@[simp] theorem State.withMem_equalFlag (m : Memory) (s : State) : (s.withMem m).equalFlag = s.equalFlag := rfl

theorem State.advance_withMem (m : Memory) (s : State) (op : Byte) :
    (s.withMem m).advance op = (s.advance op).withMem m := by
  unfold State.advance; split <;> rfl

/-- Two answers of a handler that differ in memory at most. -/
def SameButMem (r r' : Except Cause State) : Prop := ∃ m, r' = mapOk (State.withMem m) r

/-- A push writes SP and memory alone, so two pushes into two memories differ in memory at most. -/
theorem pushByte_withMem (s : State) (m : Memory) (f f' : State → Byte) :
    SameButMem (s.pushByte f) ((s.withMem m).pushByte f') :=
  ⟨((s.withMem m).pushed f').mem, pushByte_map _ s (s.withMem m) f f' rfl rfl rfl⟩

/-- A handler but POP's and RET's answers the same to everything but memory, whatever memory holds. -/
theorem handler_withMem {i : Instr} (s : State) (m : Memory) (hret : i ≠ .ret) (hpop : ∀ a, i ≠ .pop a) :
    SameButMem (handler i s) (handler i (s.withMem m)) := by
  cases i <;> simp only [handler]
  case ret => exact absurd rfl hret
  case pop a => exact absurd rfl (hpop a)
  case hlt => exact ⟨m, rfl⟩
  case push a => exact withReg_rel SameButMem (fun c => ⟨m, rfl⟩) a fun r => pushByte_withMem s m _ _
  case call a =>
    refine withReg_rel SameButMem (fun c => ⟨m, rfl⟩) a fun r => ?_
    obtain ⟨m', hm'⟩ := pushByte_withMem s m (fun _ => s.returnAddress) fun _ => (s.withMem m).returnAddress
    refine ⟨m', ?_⟩
    rw [hm']
    cases s.pushByte fun _ => s.returnAddress <;> rfl
  case prn a | jmp a | ldi a b => exact ⟨m, withReg_map _ a fun _ => rfl⟩
  case jeq a | jne a =>
    refine ⟨m, withReg_map _ a fun _ => ?_⟩
    rw [State.withMem_equalFlag]
    split <;> rfl
  case cmp a b => exact ⟨m, withRegs_map _ a b fun _ _ => rfl⟩
  case inc a | dec a | not a => exact ⟨m, alu1_map (State.withMem m) s _ a _ (fun _ => rfl) fun _ _ => rfl⟩
  all_goals exact ⟨m, alu2_map (State.withMem m) s _ _ _ _ (fun _ => rfl) fun _ _ => rfl⟩

/-- So does its whole meaning. -/
theorem exec_withMem {i : Instr} {s t : State} (m : Memory) (hret : i ≠ .ret) (hpop : ∀ a, i ≠ .pop a)
    (h : exec i s = .next t) : ∃ u, exec i (s.withMem m) = .next u ∧ ∃ m', u = t.withMem m' := by
  obtain ⟨m', hm'⟩ := handler_withMem s m hret hpop
  rw [exec_eq_conclude] at h ⊢
  exact conclude_rel (fun t u => ∃ m', u = t.withMem m') (fun c hc => ⟨by rw [hm', hc]; rfl, m, rfl⟩)
    (fun u hu => ⟨u.withMem m', by rw [hm', hu]; rfl, rfl, ⟨m', rfl⟩, m', u.advance_withMem m' _⟩) h

/-- Settles O37: of the completed handlers two write memory, and of all handlers two read it. -/
theorem onlyPushAndCallWriteMemory : Obligations.OnlyPushAndCallWriteMemory := by
  refine ⟨fun s t h hmem => decode_store_of_mem_ne h hmem, fun i s t m hret hpop h => ?_⟩
  obtain ⟨u, hu, m', rfl⟩ := exec_withMem m hret hpop h
  exact ⟨_, hu, rfl⟩

/-! ## What a store leaves at SP (R63, R66) -/

/-- The byte pushed is the byte read at the new SP. -/
theorem State.read_pushed_sp {s : State} (hm : s.mem.wf = true) (f : State → Byte) :
    (s.pushed f).mem.read ((s.pushed f).reg spIx).toNat = f (s.setReg spIx (s.reg spIx - 1)) := by
  rw [State.pushed_reg, State.reg_setReg_self]
  exact Memory.read_write_self hm _ _

/-- PUSH of a register that completes has pushed the register as the decrement left it (R140). -/
theorem handler_push_ok {s u : State} {i : RegIx} (h : handler (.push (BitVec.ofNat 8 i)) s = .ok u) :
    u = s.pushed fun t => t.reg i :=
  (State.pushByte_ok ((withReg_ofNat i _).symm.trans h)).1

/-- CALL of a register that completes has pushed the return address and written the pc (R151). -/
theorem handler_call_ok {s u : State} {i : RegIx} (h : handler (.call (BitVec.ofNat 8 i)) s = .ok u) :
    ∃ target, u = (s.pushed fun _ => s.returnAddress).setPc target := by
  replace h := (withReg_ofNat i _).symm.trans h
  split at h
  · cases h
  · rename_i w hw
    obtain ⟨rfl, -⟩ := State.pushByte_ok hw
    injection h with h
    exact ⟨_, h.symm⟩

/-- An instruction that leaves the run going has completed, and leaves what its handler leaves in everything but the pc. -/
theorem exec_running {i : Instr} {s t : State} (h : exec i s = .next t) (ht : t.run = .running) :
    ∃ u pc, handler i s = .ok u ∧ t = { u with pc := pc } := by
  rcases exec_outcome h with ⟨c, -, rfl⟩ | hu
  · cases ht
  · exact hu

/-- The return address is the low byte of pc + 2. -/
theorem State.returnAddress_eq (s : State) : s.returnAddress = BitVec.ofNat 8 (s.pc.toNat + 2) := by
  apply BitVec.eq_of_toNat_eq
  simp [State.returnAddress, BitVec.toNat_setWidth]

/-- A PUSH or CALL that leaves the run going reads back, at the new SP, what it pushed. -/
theorem exec_store_read_sp {s t : State} {i : RegIx} {v : Byte} (hm : s.mem.wf = true)
    (h : (exec (.push (BitVec.ofNat 8 i)) s = .next t ∧ v = (if i = 7 then s.reg 7 - 1 else s.reg i)) ∨
      (exec (.call (BitVec.ofNat 8 i)) s = .next t ∧ v = BitVec.ofNat 8 (s.pc.toNat + 2)))
    (ht : t.run = .running) : t.mem.read (t.reg spIx).toNat = v := by
  rcases h with ⟨h, rfl⟩ | ⟨h, rfl⟩
  · obtain ⟨u, pc, hu, rfl⟩ := exec_running h ht
    obtain rfl := handler_push_ok hu
    refine (State.read_pushed_sp hm fun t => t.reg i).trans ?_
    rw [State.reg_setReg]
    exact if_congr eq_comm rfl rfl
  · obtain ⟨u, pc, hu, rfl⟩ := exec_running h ht
    obtain ⟨target, rfl⟩ := handler_call_ok hu
    exact (State.read_pushed_sp hm fun _ => s.returnAddress).trans s.returnAddress_eq

theorem zext9_toNat (b : Byte) : (zext9 b).toNat = b.toNat := by
  rw [zext9, BitVec.toNat_setWidth]; omega

/-- A fetch at a byte address whose window is in memory latches the cell there as the opcode (R56). -/
theorem State.fetch_setPc {s : State} {a : Byte} (ha : a.toNat ≤ 253) :
    ∃ w, (s.setPc a).fetch = .ok w ∧ w.ir = s.mem.read a.toNat := by
  have hp : (s.setPc a).pc.toNat = a.toNat := zext9_toNat a
  exact ⟨_, State.fetch_window (hp.symm ▸ ha), congrArg s.mem.read hp⟩

/-- Settles O53: the pushed byte is read back at SP, and a fetch there reads the same cell. -/
theorem writtenByteIsFetchedNext : Obligations.WrittenByteIsFetchedNext := by
  intro s t i v _ _ hm h ht
  have hread : t.mem.read (t.reg 7).toNat = v := exec_store_read_sp hm h ht
  refine ⟨hread, fun hsp => ?_⟩
  obtain ⟨w, hw, hir⟩ := State.fetch_setPc (s := t) hsp
  exact ⟨w, hw, hir.trans hread⟩

/-! ## Which fatal conditions are reached (R108, R171, R178, R179) -/

/-- The fatal conditions a handler takes: a register operand above 7, DIV's or MOD's divisor of 0, and a result out of range
under FaultOverflow. -/
inductive Fatal (s : State) (i : Instr) : Cause → Prop where
  | badRegister (r : Byte) (hr : r ∈ i.regOperands) (hbad : 7 < r.toNat) : Fatal s i (.outOfBoundsRegister r)
  | divisionByZero (a b : Byte) (hi : i = .div a b ∨ i = .mod a b) : Fatal s i .divisionByZero
  | overflow (r : Int) (hp : s.params.overflowPolicy = .faultOverflow) (hr : ¬ (0 ≤ r ∧ r ≤ 255)) :
      Fatal s i (.overflow r)

theorem Fatal.of_fit8 {s : State} {i : Instr} {r : Int} {c : Cause} (h : s.fit8 r = .error c) : Fatal s i c := by
  obtain ⟨hp, rfl, hr⟩ := State.fit8_error h
  exact .overflow r hp hr

theorem Fatal.of_incSp {s t : State} {i : Instr} {c : Cause} (ht : t.params = s.params) (h : t.incSp = .error c) :
    Fatal s i c := by
  obtain ⟨hp, -, rfl⟩ := State.incSp_error h
  exact .overflow 256 (ht ▸ hp) (by decide)

theorem Fatal.of_pushByte {s : State} {i : Instr} {f : State → Byte} {c : Cause} (h : s.pushByte f = .error c) :
    Fatal s i c := by
  obtain ⟨hp, -, rfl⟩ := State.pushByte_error h
  exact .overflow (-1) hp (by decide)

theorem Fatal.of_divisor {s : State} {i : Instr} {a b B v : Byte} {c : Cause} (hi : i = .div a b ∨ i = .mod a b)
    (h : (if B = 0 then .error .divisionByZero else .ok v : Except Cause Byte) = .error c) : Fatal s i c := by
  split at h <;> cases h
  exact .divisionByZero a b hi

/-- The fatal conditions of a one-register form: the operand's, and the body's. -/
theorem withReg_error {P : Cause → Prop} {a : Byte} {k : RegIx → Except Cause State} {c : Cause}
    (hbad : 7 < a.toNat → P (.outOfBoundsRegister a)) (hk : ∀ r, k r = .error c → P c) (h : withReg a k = .error c) :
    P c := by
  rcases withReg_cases a k with ⟨ha, e⟩ | ⟨r, -, e⟩ <;> rw [e] at h
  · injection h with h; exact h ▸ hbad ha
  · exact hk r h

/-- The fatal conditions of an ALU operation of one register: the operand's, and the operation's. -/
theorem alu1_error {P : Cause → Prop} {s : State} {a : Byte} {f : Byte → Except Cause Byte} {c : Cause}
    (hbad : 7 < a.toNat → P (.outOfBoundsRegister a)) (hf : ∀ A, f A = .error c → P c) (h : alu1 s a f = .error c) :
    P c := by
  refine withReg_error hbad (fun r hr => ?_) h
  split at hr
  · rename_i c' hc
    injection hr with hr; exact hf _ (hr ▸ hc)
  · cases hr

/-- The fatal conditions of an ALU operation of two registers: the operands', and the operation's. -/
theorem alu2_error {P : Cause → Prop} {s : State} {a b : Byte} {f : Byte → Byte → Except Cause Byte} {c : Cause}
    (hbad : ∀ r ∈ [a, b], 7 < r.toNat → P (.outOfBoundsRegister r)) (hf : ∀ A B, f A B = .error c → P c)
    (h : alu2 s a b f = .error c) : P c := by
  refine withReg_error (hbad a (by simp)) (fun i => withReg_error (hbad b (by simp)) fun j hj => ?_) h
  dsimp only at hj
  split at hj
  · rename_i c' hc
    injection hj with hj; exact hf _ _ (hj ▸ hc)
  · cases hj

/-- Every fatal condition a handler takes. -/
theorem handler_fatal {i : Instr} {s : State} {c : Cause} (h : handler i s = .error c) : Fatal s i c := by
  have bad : ∀ r ∈ i.regOperands, 7 < r.toNat → Fatal s i (.outOfBoundsRegister r) := Fatal.badRegister
  cases i <;> simp only [handler] at h
  case hlt => cases h
  case ret =>
    rw [State.popByte_eq] at h
    exact .of_incSp (t := s.setPc _) rfl h
  case push a => exact withReg_error (bad a (.head _)) (fun _ => .of_pushByte) h
  case pop a =>
    refine withReg_error (bad a (.head _)) (fun r hr => ?_) h
    rw [State.popByte_eq] at hr
    exact .of_incSp (t := s.setReg r _) rfl hr
  case call a =>
    refine withReg_error (bad a (.head _)) (fun r hr => ?_) h
    split at hr
    · rename_i c' hc
      exact .of_pushByte (hc.trans hr)
    · cases hr
  case prn a | jmp a | jeq a | jne a | ldi a b =>
    exact withReg_error (bad a (.head _)) (fun _ e => by cases e) h
  case cmp a b =>
    exact withReg_error (bad a (.head _))
      (fun _ => withReg_error (bad b (.tail _ (.head _))) fun _ e => by cases e) h
  case inc a | dec a | not a => exact alu1_error (bad a (.head _)) (fun _ => .of_fit8) h
  case add a b | sub a b | mul a b | shl a b => exact alu2_error bad (fun _ _ => .of_fit8) h
  case div a b => exact alu2_error bad (fun _ _ => .of_divisor (.inl rfl)) h
  case mod a b => exact alu2_error bad (fun _ _ => .of_divisor (.inr rfl)) h
  all_goals exact alu2_error bad (fun _ _ e => by cases e) h

/-- An instruction that faults a Running state has taken its handler's fatal condition. -/
theorem exec_faulted {i : Instr} {s t : State} {c : Cause} {p : Pc} (hr : s.run = .running) (h : exec i s = .next t)
    (ht : t.run = .faulted c p) : handler i s = .error c ∧ t = s.raise c := by
  rcases exec_outcome h with ⟨c', hc, rfl⟩ | ⟨u, pc, hu, rfl⟩
  · injection ht with hcc; exact ⟨hcc ▸ hc, hcc ▸ rfl⟩
  · rcases (handler_shape hu).run_cases with he | ⟨-, rfl⟩
    · cases (he.trans hr).symm.trans ht
    · cases ht

/-- A step that faults has left memory with its fetch window, met an unimplemented ALU byte, or run a handler that took its
fatal condition. -/
theorem step_faulted {s t : State} {c : Cause} {p : Pc} (h : step s = .next t) (ht : t.run = .faulted c p) :
    t = s.raise c ∧
      (c = .outOfBoundsFetch ∨ (∃ op, c = .unsupportedAluOperation op) ∨ ∃ i, handler i s = .error c) := by
  obtain ⟨hr, ⟨-, rfl⟩ | ⟨-, ⟨i, -, he⟩ | ⟨op, -, rfl⟩ | ⟨op, -, rfl⟩⟩⟩ := step_cases h
  · injection ht with hc; subst hc; exact ⟨rfl, .inl rfl⟩
  · obtain ⟨hc, rfl⟩ := exec_faulted hr he ht
    exact ⟨rfl, .inr (.inr ⟨i, hc⟩)⟩
  · cases ((State.advance_run (s.report op) op).trans hr).symm.trans ht
  · injection ht with hc; subst hc; exact ⟨rfl, .inr (.inl ⟨op, rfl⟩)⟩

/-- Settles O49: OutOfBounds(data) is none of the causes a step takes, and Overflow is one under FaultOverflow alone, for a
result out of range. -/
theorem unreachableCauses : Obligations.UnreachableCauses := by
  intro s t c p h ht
  obtain ⟨-, rfl | ⟨op, rfl⟩ | ⟨i, hc⟩⟩ := step_faulted h ht
  · exact ⟨nofun, nofun⟩
  · exact ⟨nofun, nofun⟩
  · cases handler_fatal hc
    case badRegister | divisionByZero => exact ⟨nofun, nofun⟩
    case overflow r hp hr => exact ⟨nofun, fun r' e => Cause.overflow.inj e ▸ ⟨hp, hr⟩⟩

end Sys2Proof.Machine
end

section
/-! PROOFS. Decoding: which bytes decode to an instruction, that the encoder's bytes decode to theirs, and what a step makes of
the unassigned bytes. -/

namespace Sys2Proof

/-! ## The decoder's outputs (R72) -/

theorem operandCount_eq_div (op : Byte) : operandCount op = op.toNat / 2 ^ 6 := by
  rw [operandCount, BitVec.toNat_ushiftRight, Nat.shiftRight_eq_div_pow]

/-- Settles O44: the count is a shift, and the two flags are bits of the byte by definition. -/
theorem decoderFields : Obligations.DecoderFields :=
  fun op => ⟨operandCount_eq_div op, rfl, rfl⟩

/-! ## The bytes of a decoded instruction (R75, R76, R103) -/

/-- The ALU's case label that matches reads the operands its instruction uses and no other byte. -/
theorem decodeAlu_exact {m : OpcodeMap} {op a b : Byte} {i : Instr} (h : decodeAlu m op a b = .instr i) :
    i.operands <+: [a, b] ∧ ∀ a' b', i.operands <+: [a', b'] → decodeAlu m op a' b' = .instr i := by
  unfold decodeAlu at h ⊢
  iterate 14
    rcases ite_instr h with ⟨ho, rfl⟩ | ⟨ho, h⟩
    · simp +contextual [Instr.operands, ho]
    simp only [if_neg ho]
  cases h

/-- A decoded instruction is named by the opcode byte, and any bytes that begin with its operands decode to it. -/
theorem decode_exact {m : OpcodeMap} {op a b : Byte} {i : Instr} (h : decode m op a b = .instr i) :
    op = opcode m i ∧ i.operands <+: [a, b] ∧ ∀ a' b', i.operands <+: [a', b'] → decode m op a' b' = .instr i := by
  unfold decode at h ⊢
  cases hd : dispatch m op <;> rw [hd] at h
  case alu => exact ⟨decodeAlu_opcode h, decodeAlu_exact h⟩
  case unknown => cases h
  all_goals
    injection h with h
    subst h
    have ho := dispatch_cases hd
    simp only [reduceCtorEq, false_and, true_and, false_or, or_false] at ho
    exact ⟨ho, by simp +contextual [Instr.operands]⟩

/-- Settles O41: by the case label that matched, which no operand byte decides. -/
theorem decodeIsExact : Obligations.DecodeIsExact := fun _ _ _ _ _ h => decode_exact h

/-! ## The instructions that two operand bytes make -/

/-- The instructions whose operands are the first of `a`, `b`, in the order of the opcode table. -/
def instrsWith (a b : Byte) : List Instr :=
  [.hlt, .ret, .push a, .pop a, .prn a, .call a, .jmp a, .jeq a, .jne a, .inc a, .dec a, .not a,
   .ldi a b, .add a b, .sub a b, .mul a b, .div a b, .mod a b, .cmp a b, .and a b, .or a b, .xor a b, .shl a b, .shr a b]

theorem mem_instrsWith {i : Instr} {a b : Byte} : i ∈ instrsWith a b ↔ i.operands <+: [a, b] := by
  cases i <;> simp [instrsWith, Instr.operands]

/-- Their opcodes are the map's bytes. -/
theorem map_opcode_instrsWith (m : OpcodeMap) (a b : Byte) : (instrsWith a b).map (opcode m) = m.bytes := rfl

/-- Distinct bytes name distinct instructions (R100). -/
theorem opcode_inj {m : OpcodeMap} (hm : m.valid = true) {i j : Instr} {a b : Byte} (hi : i.operands <+: [a, b])
    (hj : j.operands <+: [a, b]) (h : opcode m i = opcode m j) : i = j :=
  List.inj_on_of_nodup_map (map_opcode_instrsWith m a b ▸ valid_nodup hm) (mem_instrsWith.mpr hi) (mem_instrsWith.mpr hj) h

/-- An assigned byte is the opcode of an instruction with any given operand bytes. -/
theorem exists_opcode_of_mem {m : OpcodeMap} {op : Byte} (h : op ∈ m.bytes) (a b : Byte) :
    ∃ i : Instr, i.operands <+: [a, b] ∧ opcode m i = op := by
  rw [← map_opcode_instrsWith m a b] at h
  obtain ⟨i, hi, ho⟩ := List.mem_map.mp h
  exact ⟨i, mem_instrsWith.mp hi, ho⟩

/-! ## Assigned bytes decode (R101, R105) -/

theorem exists_ite_instr {c : Prop} [Decidable c] {x : Instr} {r : Decoded} :
    (∃ i, (if c then .instr x else r) = Decoded.instr i) ↔ c ∨ ∃ i, r = .instr i := by
  by_cases h : c <;> simp [h]

/-- The dispatcher gives the ALU exactly the bytes with bit 5 set (R101, D3). -/
theorem dispatch_eq_alu_iff {m : OpcodeMap} {op : Byte} : dispatch m op = .alu ↔ isAlu op = true := by
  simp [dispatch, ite_eq_iff]

/-- The dispatcher has a handler for every instruction outside the ALU class. -/
theorem dispatch_opcode_ne_unknown {m : OpcodeMap} {i : Instr} (hi : i.aluClass = false) :
    dispatch m (opcode m i) ≠ .unknown := by
  simp only [dispatch, ne_eq, ite_eq_iff, reduceCtorEq, and_false, false_or, not_and]
  cases i <;> simp_all [opcode, Instr.aluClass]

/-- The ALU has a case label for every instruction of its class. -/
theorem decodeAlu_opcode_isInstr {m : OpcodeMap} {i : Instr} (hi : i.aluClass = true) (a b : Byte) :
    ∃ j, decodeAlu m (opcode m i) a b = .instr j := by
  simp only [decodeAlu, exists_ite_instr]
  cases i <;> simp_all [opcode, Instr.aluClass]

/-- An opcode whose bit 5 is its instruction's class decodes to some instruction. -/
theorem decode_opcode_isInstr {m : OpcodeMap} {i : Instr} (h5 : isAlu (opcode m i) = i.aluClass) (a b : Byte) :
    ∃ j, decode m (opcode m i) a b = .instr j := by
  unfold decode
  cases hd : dispatch m (opcode m i)
  case alu => exact decodeAlu_opcode_isInstr (h5 ▸ dispatch_eq_alu_iff.mp hd) a b
  case unknown =>
    have hi : i.aluClass = false := by
      rw [← h5, Bool.eq_false_iff]
      intro h
      cases (dispatch_eq_alu_iff.mpr h).symm.trans hd
    exact absurd hd (dispatch_opcode_ne_unknown hi)
  all_goals exact ⟨_, rfl⟩

/-- An instruction's opcode decodes to it before any bytes that begin with its operands. -/
theorem decode_opcode {m : OpcodeMap} (hm : m.valid = true) {i : Instr} {a b : Byte} (hi : i.operands <+: [a, b]) :
    decode m (opcode m i) a b = .instr i := by
  obtain ⟨j, hj⟩ := decode_opcode_isInstr (isAlu_opcode hm i) a b
  obtain ⟨ho, hp, -⟩ := decode_exact hj
  rw [hj, opcode_inj hm hi hp ho]

/-! ## Encoding -/

/-- A list of at most two bytes begins the first two bytes of a sequence that it begins. -/
theorem isPrefix_first_two {l : List Byte} (hl : l.length ≤ 2) (t : List Byte) :
    l <+: [(l ++ t).getD 0 0, (l ++ t).getD 1 0] := by
  match l, hl with
  | [], _ | [_], _ | [_, _], _ => simp

theorem Instr.operands_length_le (i : Instr) : i.operands.length ≤ 2 := by
  cases i <;> simp [Instr.operands]

/-- The encoding has the length the opcode announces (R81). -/
theorem length_encode {m : OpcodeMap} (hm : m.valid = true) (i : Instr) :
    (encode m i).length = operandCount (opcode m i) + 1 := by
  have h := operands_le_count hm i
  simp only [encode, List.length_cons, List.length_append, List.length_replicate]
  omega

/-- What follows an encoding does not matter: it begins with the opcode and the operands. -/
theorem decodeBytes_encode {m : OpcodeMap} (hm : m.valid = true) (i : Instr) (rest : List Byte) :
    decodeBytes m (encode m i ++ rest) = .instr i := by
  rw [encode, List.cons_append, List.append_assoc]
  exact decode_opcode hm (isPrefix_first_two i.operands_length_le _)

/-- Settles O40: the encoding begins with the opcode and the operands, which decide what it decodes to. -/
theorem decodeOfEncode : Obligations.DecodeOfEncode :=
  fun _ i rest hm => ⟨length_encode hm i, decodeBytes_encode hm i rest⟩

/-- Settles O43, by running the decoder on the words. -/
theorem specWordsDecode : Obligations.SpecWordsDecode := by
  unfold Obligations.SpecWordsDecode
  decide

/-! ## Unassigned bytes (R79) -/

/-- What a byte decodes to under a valid map, by whether the map assigns it and by its bit 5. -/
theorem decode_class {m : OpcodeMap} (hm : m.valid = true) (op a b : Byte) :
    ((∃ i, decode m op a b = .instr i) ↔ op ∈ m.bytes) ∧
    (decode m op a b = .unsupportedAlu op ↔ op ∉ m.bytes ∧ op.getLsbD 5 = true) ∧
    (decode m op a b = .unknownOpcode op ↔ op ∉ m.bytes ∧ op.getLsbD 5 = false) := by
  by_cases h : op ∈ m.bytes
  · obtain ⟨i, hi, rfl⟩ := exists_opcode_of_mem h a b
    simp [decode_opcode hm hi, h]
  · cases h5 : op.getLsbD 5
    · simp [decode_unknown h5 h, h]
    · simp [decode_unsupported h5 h, h]

end Sys2Proof

namespace Sys2Proof.Machine

/-- A step on an unassigned byte with bit 5 clear reports it and takes the default advance (R104). -/
theorem step_unknown {s : State} (hr : s.run = .running) (hp : s.pc.toNat ≤ 253)
    (h5 : isAlu (s.mem.read s.pc.toNat) = false) (h : s.mem.read s.pc.toNat ∉ s.params.opcodeMap.bytes) :
    step s = .next (s.skipUnknown (s.mem.read s.pc.toNat)) := by
  rw [step_window hr hp, decode_unknown h5 h]
  rfl

/-- A step on an unassigned byte with bit 5 set takes UnsupportedAluOperation (R105). -/
theorem step_unsupported {s : State} (hr : s.run = .running) (hp : s.pc.toNat ≤ 253)
    (h5 : isAlu (s.mem.read s.pc.toNat) = true) (h : s.mem.read s.pc.toNat ∉ s.params.opcodeMap.bytes) :
    step s = .next (s.raise (.unsupportedAluOperation (s.mem.read s.pc.toNat))) := by
  rw [step_window hr hp, decode_unsupported h5 h]
  rfl

theorem State.skipUnknown_of_setsPc {op : Byte} (h : setsPc op = true) (s : State) : s.skipUnknown op = s.report op :=
  if_pos h

theorem State.skipUnknown_of_not_setsPc {op : Byte} (h : setsPc op = false) (s : State) :
    s.skipUnknown op = { s.report op with pc := s.pc + BitVec.ofNat 9 (op.toNat / 64 + 1) } := by
  rw [State.skipUnknown_eq, State.advance, h, instrLength, operandCount_eq_div]
  rfl

/-- Settles O42: an assigned byte decodes, an unassigned one goes by its bit 5, and the bytes of each class are counted. -/
theorem unassignedByteClasses : Obligations.UnassignedByteClasses := by
  refine ⟨fun m op a b hm => decode_class hm op a b, by decide +kernel, ?_⟩
  rintro s _ hr hp - rfl h
  refine ⟨fun h5 => step_unsupported hr hp h5 h, fun h5 h4 => ?_, fun h5 h4 => ?_⟩
  · rw [step_unknown hr hp h5 h, State.skipUnknown_of_not_setsPc h4]
    rfl
  · rw [step_unknown hr hp h5 h, State.skipUnknown_of_setsPc h4]
    rfl

/-! ## Totality (R72, R106, R113) -/

theorem execDecoded_next (d : Decoded) (s : State) : ∃ t, execDecoded d s = .next t := by
  cases d
  case instr i => exact exec_next i s
  case unknownOpcode | unsupportedAlu => exact ⟨_, rfl⟩

theorem step_next {s : State} (hr : s.run = .running) : ∃ t, step s = .next t := by
  by_cases hp : s.pc.toNat ≤ 253
  · rw [step_window hr hp]; exact execDecoded_next _ s
  · exact ⟨_, step_outOfBounds hr (by omega)⟩

/-- Settles O35: whatever is fetched has a next state, and an ended run answers a fault. -/
theorem runningStatesStep : Obligations.RunningStatesStep := by
  refine ⟨fun _ hr => step_next hr, fun s r h => ?_⟩
  cases hr : s.run
  case running =>
    obtain ⟨t, ht⟩ := step_next hr
    cases ht.symm.trans h
  case halted | faulted => rw [step, hr] at h; cases h

end Sys2Proof.Machine
end

section
/-! PROOFS. The execution loop: faults are precise, unassigned bytes, ended runs, and the register checks. -/

namespace Sys2Proof.Machine

/-! ## Fatal conditions (R109, R214) -/

/-- Settles O28: every faulting step takes its fatal condition in the state it started from. -/
theorem fatalConditionWritesRunOnly : Obligations.FatalConditionWritesRunOnly := by
  intro s t c p h ht
  obtain ⟨rfl, -⟩ := step_faulted h ht
  exact ⟨(Run.faulted.inj ht).2.symm, rfl⟩

/-! ## Unassigned bytes (R104, R105) -/

/-- An unassigned byte with bit 5 clear and bit 4 set is reported, and nothing else changes (R104, C2). -/
theorem step_unknown_of_setsPc {s : State} {op : Byte} (hr : s.run = .running) (hp : s.pc.toNat ≤ 253)
    (hop : op = s.mem.read s.pc.toNat) (h5 : isAlu op = false) (h : op ∉ s.params.opcodeMap.bytes)
    (h4 : setsPc op = true) : step s = .next (s.report op) := by
  subst hop
  rw [step_unknown hr hp h5 h, State.skipUnknown_of_setsPc h4]

/-- Its report keeps the pc and memory, so every further step reports it again. -/
theorem run_unknown_of_setsPc {s : State} {op : Byte} (hr : s.run = .running) (hp : s.pc.toNat ≤ 253)
    (hop : op = s.mem.read s.pc.toNat) (h5 : isAlu op = false) (h : op ∉ s.params.opcodeMap.bytes)
    (h4 : setsPc op = true) (n : Nat) :
    Host.Core.run core n s = .next { s with diag := s.diag ++ List.replicate n ⟨s.pc, op⟩ } := by
  induction n generalizing s with
  | zero => rw [run_zero, List.replicate_zero, List.append_nil]
  | succ n ih =>
    rw [run_succ (step_unknown_of_setsPc hr hp hop h5 h h4), ih (s := s.report op) hr hp hop h]
    simp [State.report, List.replicate_succ]

/-- Settles O31: one step by the byte's bit 4, and any number of steps by induction when it keeps the pc. -/
theorem unknownOpcodeIsReported : Obligations.UnknownOpcodeIsReported := by
  intro s op hr hp _ hop h5 h
  refine ⟨?_, fun h4 => run_unknown_of_setsPc hr hp hop h5 h h4⟩
  cases h4 : op.getLsbD 4
  · subst hop
    rw [step_unknown hr hp h5 h, State.skipUnknown_of_not_setsPc h4]; rfl
  · exact step_unknown_of_setsPc hr hp hop h5 h h4

/-- Settles O32: a bit-5 byte that no case label of the ALU names, whatever its operand bytes. -/
theorem unsupportedAluByteFaults : Obligations.UnsupportedAluByteFaults := by
  rintro s _ hr hp _ rfl h5 h
  exact step_unsupported hr hp h5 h

/-! ## Ended runs (R111, R216) -/

/-- Settles O33: only the running arm of a step fetches. -/
theorem endedRunsDoNotStep : Obligations.EndedRunsDoNotStep :=
  ⟨fun s h => by rw [step, h], fun s c p h => by rw [step, h]⟩

/-- An instruction that halts a Running state is HLT (R131). -/
theorem eq_hlt_of_exec_halted {i : Instr} {s t : State} (hr : s.run = .running) (h : exec i s = .next t)
    (ht : t.run = .halted) : i = .hlt := by
  rcases exec_outcome h with ⟨c, -, rfl⟩ | ⟨u, pc, hu, rfl⟩
  · cases ht
  · rcases (handler_shape hu).run_cases with he | ⟨hi, -⟩
    · cases (he.trans hr).symm.trans ht
    · exact hi

/-- Settles O34: of all a step can do from a Running state, HLT's handler alone halts. -/
theorem onlyHltHalts : Obligations.OnlyHltHalts := by
  refine ⟨fun s t h ht => ?_, fun s t h => (step_cases h).1⟩
  obtain ⟨hr, ⟨-, rfl⟩ | ⟨-, ⟨i, hd, he⟩ | ⟨op, -, rfl⟩ | ⟨op, -, rfl⟩⟩⟩ := step_cases h
  · cases ht
  · exact eq_hlt_of_exec_halted hr he ht ▸ hd
  · cases ((State.advance_run (s.report op) op).trans hr).symm.trans ht
  · cases ht

/-! ## Register checks (R108) -/

/-- The first of some operand bytes that is no register's. -/
def firstBadRegister (rs : List Byte) : Option Byte := rs.find? fun b => decide (7 < b.toNat)

theorem firstBadRegister_cons_of_gt {a : Byte} (h : 7 < a.toNat) (rs : List Byte) :
    firstBadRegister (a :: rs) = some a := List.find?_cons_of_pos (decide_eq_true h)

theorem firstBadRegister_cons_of_le {a : Byte} (h : a.toNat ≤ 7) (rs : List Byte) :
    firstBadRegister (a :: rs) = firstBadRegister rs := List.find?_cons_of_neg (by simpa using h)

theorem regByte_toNat_le (i : RegIx) : (BitVec.ofNat 8 i.val).toNat ≤ 7 := by
  rw [toNat_ofNat_regIx]; omega

theorem withReg_firstBadRegister {a r : Byte} (h : firstBadRegister [a] = some r) (k : RegIx → Except Cause State) :
    withReg a k = .error (.outOfBoundsRegister r) := by
  rcases withReg_cases a k with ⟨ha, e⟩ | ⟨i, rfl, -⟩
  · cases (firstBadRegister_cons_of_gt ha []).symm.trans h; exact e
  · rw [firstBadRegister_cons_of_le (regByte_toNat_le i)] at h; cases h

theorem withRegs_firstBadRegister {a b r : Byte} (h : firstBadRegister [a, b] = some r)
    (k : RegIx → RegIx → Except Cause State) : withRegs a b k = .error (.outOfBoundsRegister r) := by
  rcases regByte_cases a with ha | ⟨i, rfl⟩
  · cases (firstBadRegister_cons_of_gt ha [b]).symm.trans h; exact withRegs_bad_a ha b k
  · rw [firstBadRegister_cons_of_le (regByte_toNat_le i)] at h
    rw [withRegs, withReg_ofNat]
    exact withReg_firstBadRegister h _

/-- Every handler checks its register operands, in their order, before anything else. -/
theorem handler_firstBadRegister {i : Instr} {r : Byte} (h : firstBadRegister i.regOperands = some r) (s : State) :
    handler i s = .error (.outOfBoundsRegister r) := by
  cases i
  case hlt | ret => cases h
  case push | pop | prn | call | jmp | jeq | jne | inc | dec | not | ldi => exact withReg_firstBadRegister h _
  all_goals exact withRegs_firstBadRegister h _

/-- The register operands of a well-formed instruction are registers' bytes (R75). -/
theorem toNat_le_of_wf {i : Instr} (hi : i.wf = true) {r : Byte} (hr : r ∈ i.regOperands) : r.toNat ≤ 7 :=
  of_decide_eq_true (List.all_eq_true.mp hi r hr)

/-- Settles O54: the checks come first in every handler, and no later fatal condition is OutOfBounds(register). -/
theorem registerChecksComeFirst : Obligations.RegisterChecksComeFirst := by
  refine fun i s => ⟨fun r h => exec_fatal (handler_firstBadRegister h s), fun hi hr t r p h ht => ?_⟩
  cases handler_fatal (exec_faulted hr h ht).1
  case badRegister hmem hbad => exact absurd hbad (Nat.not_lt.mpr (toNat_le_of_wf hi hmem))

end Sys2Proof.Machine
end

section
/-! PROOFS. Data movement: HLT, LDI and PRN. -/

namespace Sys2Proof.Machine

/-! ## An instruction of fixed length that does not set the pc (R27, R77) -/

/-- When its handler completes with the run going on, it leaves what the handler leaves, advanced by its own length. -/
theorem exec_advances {i : Instr} {s u : State} (hm : s.params.opcodeMap.valid = true) (hp : i.setsPc = false)
    (hl : i.lengthOpen = false) (h : handler i s = .ok u) (hr : u.run = .running) :
    exec i s = .next { u with pc := u.pc + BitVec.ofNat 9 (i.operands.length + 1) } := by
  rw [exec_completes h hr, advance_opcode hm hp hl]

/-! ## HLT (R131) -/

/-- Settles O1: nothing follows HLT's handler, its fetch faults past 253, and no other handler touches the run. -/
theorem hltHalts : Obligations.HltHalts := by
  refine ⟨exec_hlt, fun a b => ?_, fun s hr hp => ?_, fun i s t hr h ht => eq_hlt_of_exec_halted hr h ht⟩
  · exact decode_opcode defaultOpcodeMap_valid (i := .hlt) List.nil_prefix
  · refine step_outOfBounds hr ?_
    rcases hp with hp | hp <;> rw [hp] <;> decide

/-! ## PRN (R133) -/

/-- PRN of a register emits its byte. -/
theorem handler_prn (i : RegIx) (s : State) : handler (.prn (BitVec.ofNat 8 i)) s = .ok (s.emit (s.reg i)) :=
  withReg_ofNat i _

/-- A handler leaves the output log, but for PRN. -/
theorem Shape.out_cases {s u : State} {i : Instr} (h : Shape s i u) : u.out = s.out ∨ ∃ a, i = .prn a := by
  cases h
  case emitted r => exact .inr ⟨_, rfl⟩
  all_goals exact .inl rfl

/-- An instruction that changes the output log is PRN. -/
theorem eq_prn_of_exec_out_ne {i : Instr} {s t : State} (h : exec i s = .next t) (hout : t.out ≠ s.out) :
    ∃ a, i = .prn a := by
  rcases exec_outcome h with ⟨c, -, rfl⟩ | ⟨u, pc, hu, rfl⟩
  · exact absurd (State.raise_out s c) hout
  · exact (handler_shape hu).out_cases.resolve_left hout

/-- Settles O3: PRN's handler emits one register, and no other handler touches the output log. -/
theorem prnEmitsRegister : Obligations.PrnEmitsRegister := by
  refine ⟨fun s hr hm => ⟨fun i => ?_, fun a ha => exec_fatal (withReg_bad ha _)⟩, fun a b => ?_, fun v => rfl,
    fun i s t h hout => eq_prn_of_exec_out_ne h hout⟩
  · exact exec_advances hm rfl rfl (handler_prn i s) hr
  · exact decode_opcode defaultOpcodeMap_valid (i := .prn a) (List.prefix_append [a] [b])

/-! ## LDI (R132) -/

/-- LDI of a register writes it. -/
theorem handler_ldi (i : RegIx) (b : Byte) (s : State) :
    handler (.ldi (BitVec.ofNat 8 i) b) s = .ok (s.setReg i b) :=
  withReg_ofNat i _

/-- Settles O2: LDI's handler checks its register byte alone and writes one register. -/
theorem ldiLoadsImmediate : Obligations.LdiLoadsImmediate := by
  refine ⟨fun s hr hm => ⟨fun i b => ?_, fun a b ha => exec_fatal (withReg_bad ha _)⟩, fun a b => ?_⟩
  · exact exec_advances hm rfl rfl (handler_ldi i b s) hr
  · exact decode_opcode defaultOpcodeMap_valid (i := .ldi a b) List.prefix_rfl

end Sys2Proof.Machine
end

section
/-! PROOFS. The stack: PUSH and POP, and their round trip. -/

namespace Sys2Proof.Machine

/-! ## SP leaving a byte under FaultOverflow (R139, R171) -/

/-- A push at SP = 0 takes Overflow(-1). -/
theorem State.pushByte_overflows {s : State} {f : State → Byte} (hp : s.params.overflowPolicy = .faultOverflow)
    (h0 : s.reg spIx = 0) : s.pushByte f = .error (.overflow (-1)) := by
  cases h : s.pushByte f with
  | error c => rw [(State.pushByte_error h).2.2]
  | ok t => exact absurd h0 ((State.pushByte_ok h).2 hp)

/-- An increment of SP = 255 takes Overflow(256). -/
theorem State.incSp_overflows {s : State} (hp : s.params.overflowPolicy = .faultOverflow) (h255 : s.reg spIx = 255) :
    s.incSp = .error (.overflow 256) := by
  cases h : s.incSp with
  | error c => rw [(State.incSp_error h).2.2]
  | ok t => exact absurd h255 ((State.incSp_ok h).2 hp)

/-! ## PUSH (R140) -/

/-- PUSH of a register pushes it as the decrement of SP leaves it. -/
theorem handler_push (i : RegIx) (s : State) :
    handler (.push (BitVec.ofNat 8 i)) s = s.pushByte fun t => t.reg i :=
  withReg_ofNat i _

/-- A PUSH whose decrement of SP completes leaves the pushed state, two bytes on. -/
theorem exec_push {s : State} (hr : s.run = .running) (hm : s.params.opcodeMap.valid = true) (i : RegIx)
    (h : s.params.overflowPolicy = .wrap8 ∨ s.reg spIx ≠ 0) :
    exec (.push (BitVec.ofNat 8 i)) s = .next { s.pushed (fun t => t.reg i) with pc := s.pc + 2 } :=
  exec_advances hm rfl rfl ((handler_push i s).trans (State.pushByte_completes h)) hr

/-- Which register a write to SP changes: R7. -/
theorem State.reg_setReg_sp (s : State) (i : RegIx) (v : Byte) :
    (s.setReg spIx v).reg i = if i = 7 then v else s.reg i :=
  (s.reg_setReg spIx i v).trans (if_congr eq_comm rfl rfl)

/-- Settles O4: PUSH checks its register byte, and its push completes unless SP is 0 under FaultOverflow. -/
theorem pushStoresRegister : Obligations.PushStoresRegister := by
  refine ⟨fun s hr hm => ⟨fun i h => ?_, fun i hp h0 => ?_, fun a ha => exec_fatal (withReg_bad ha _)⟩, fun a b => ?_⟩
  · rw [← s.reg_setReg_sp i]
    exact exec_push hr hm i h
  · exact exec_fatal ((handler_push i s).trans (State.pushByte_overflows hp h0))
  · exact decode_opcode defaultOpcodeMap_valid (i := .push a) (List.prefix_append [a] [b])

/-! ## POP (R141) -/

/-- POP of a register loads it from the cell at SP, and then increments SP as that load leaves it. -/
theorem handler_pop (i : RegIx) (s : State) :
    handler (.pop (BitVec.ofNat 8 i)) s = (s.setReg i (s.mem.read (s.reg spIx).toNat)).incSp :=
  (withReg_ofNat i _).trans (s.popByte_eq fun v t => t.setReg i v)

/-- A POP whose increment of SP completes leaves the loaded register and the incremented SP, two bytes on. -/
theorem exec_pop {s t : State} {i : RegIx} (hr : s.run = .running) (hm : s.params.opcodeMap.valid = true)
    (ht : t = s.setReg i (s.mem.read (s.reg spIx).toNat))
    (h : t.params.overflowPolicy = .wrap8 ∨ t.reg spIx ≠ 255) :
    exec (.pop (BitVec.ofNat 8 i)) s = .next { t.setReg spIx (t.reg spIx + 1) with pc := s.pc + 2 } := by
  subst ht
  exact exec_advances hm rfl rfl ((handler_pop i s).trans (State.incSp_completes h)) hr

/-- Which register's write changes SP: R7's. -/
theorem State.sp_setReg (s : State) (i : RegIx) (v : Byte) :
    (s.setReg i v).reg spIx = if i = 7 then v else s.reg 7 :=
  s.reg_setReg i spIx v

/-- Settles O5: POP checks its register byte, and its increment completes unless the loaded state's SP is 255 under
FaultOverflow. -/
theorem popLoadsRegister : Obligations.PopLoadsRegister := by
  refine ⟨fun s hr hm => ⟨?_, fun a ha => exec_fatal (withReg_bad ha _)⟩, fun a b => ?_⟩
  · rintro i _ _ rfl rfl
    rw [← s.sp_setReg i]
    exact ⟨exec_pop hr hm rfl, fun hp h => exec_fatal ((handler_pop i s).trans (State.incSp_overflows hp h))⟩
  · exact decode_opcode defaultOpcodeMap_valid (i := .pop a) (List.prefix_append [a] [b])

/-! ## PUSH and then POP (R142) -/

theorem State.setReg_reg_self (s : State) (i : RegIx) : s.setReg i (s.reg i) = s := by
  simp [State.setReg, State.reg, Vector.get_eq_getElem]

/-- Where the cell at SP holds the register already, POP of it only moves SP and the pc. -/
theorem exec_pop_of_read_eq_reg {s : State} {i : RegIx} (hr : s.run = .running)
    (hm : s.params.opcodeMap.valid = true) (hread : s.mem.read (s.reg spIx).toNat = s.reg i)
    (h : s.params.overflowPolicy = .wrap8 ∨ s.reg spIx ≠ 255) :
    exec (.pop (BitVec.ofNat 8 i)) s = .next { s.setReg spIx (s.reg spIx + 1) with pc := s.pc + 2 } :=
  exec_pop hr hm (by rw [hread, State.setReg_reg_self]) h

/-- The increment of SP after a push gives back every register. -/
theorem State.reg_setReg_sp_pushed (s : State) (f : State → Byte) (r : RegIx) :
    ((s.pushed f).setReg spIx ((s.pushed f).reg spIx + 1)).reg r = s.reg r := by
  by_cases h : spIx = r
  · subst h
    rw [State.reg_setReg_self, State.pushed_reg, State.reg_setReg_self, BitVec.sub_add_cancel]
  · rw [State.reg_setReg_ne _ _ h, State.pushed_reg, State.reg_setReg_ne _ _ h]

/-- Settles O45: after PUSH the cell at SP holds the register as it is then, so POP only undoes the decrement. -/
theorem pushThenPopRestores : Obligations.PushThenPopRestores := by
  intro s i hr hm hmem h
  have hpop : s.params.overflowPolicy = .wrap8 ∨ (s.pushed fun t => t.reg i).reg spIx ≠ 255 := by
    refine h.imp_right fun h0 h255 => h0 ?_
    rw [State.pushed_reg, State.reg_setReg_self] at h255
    exact (BitVec.sub_add_cancel (s.reg 7) 1).symm.trans (congrArg (· + 1) h255)
  have hread := State.read_pushed_sp hmem fun t => t.reg i
  have hregs := s.reg_setReg_sp_pushed fun t => t.reg i
  exact ⟨_, _, exec_push hr hm i h, exec_pop_of_read_eq_reg hr hm hread hpop, hr, hregs i, hregs⟩

end Sys2Proof.Machine
end

section
/-! PROOFS. Subroutines and branches: CALL and RET, and their round trip, and JMP, JEQ and JNE. -/

namespace Sys2Proof.Machine

/-! ## An instruction that sets the pc (R27, R77) -/

/-- When its handler completes with the run going on, it leaves what the handler leaves. -/
theorem exec_of_setsPc {i : Instr} {s u : State} (hm : s.params.opcodeMap.valid = true) (hp : i.setsPc = true)
    (h : handler i s = .ok u) (hr : u.run = .running) : exec i s = .next u := by
  rw [exec_completes h hr, advance_opcode_setsPc hm hp]

/-! ## JMP (R153) -/

/-- JMP of a register writes its byte to the pc. -/
theorem exec_jmp {s : State} (hr : s.run = .running) (hm : s.params.opcodeMap.valid = true) (i : RegIx) :
    exec (.jmp (BitVec.ofNat 8 i)) s = .next (s.setPc (s.reg i)) :=
  exec_of_setsPc hm rfl (withReg_ofNat i _) hr

/-- A jump to the pc it stands at leaves the state as it is. -/
theorem State.setPc_of_zext9_eq {s : State} {v : Byte} (h : zext9 v = s.pc) : s.setPc v = s := by
  rw [State.setPc, h]

/-- A state that steps to itself runs to itself. -/
theorem run_of_step_self {s : State} (h : step s = .next s) (n : Nat) : Host.Core.run core n s = .next s := by
  induction n with
  | zero => exact run_zero s
  | succ n ih => rw [run_succ h, ih]

/-- Settles O8: JMP writes the pc alone, so one that jumps to itself steps to the same state, and a run repeats it. -/
theorem jmpSetsPc : Obligations.JmpSetsPc := by
  refine ⟨fun s hr hm => ⟨exec_jmp hr hm, fun a ha => exec_fatal (withReg_bad ha _)⟩, fun a b => ?_,
    fun s i n hr hm hp hd htarget => run_of_step_self ?_ n⟩
  · exact decode_opcode defaultOpcodeMap_valid (i := .jmp a) (List.prefix_append [a] [b])
  · calc step s = exec (.jmp (BitVec.ofNat 8 i)) s := stepRunsDecodedInstruction s _ hr hp hd
      _ = .next (s.setPc (s.reg i)) := exec_jmp hr hm i
      _ = .next s := by rw [State.setPc_of_zext9_eq htarget]

/-! ## JEQ and JNE (R154, R155) -/

/-- A choice between two writes of the pc is a write of the chosen one. -/
theorem State.ite_pc (s : State) (c : Prop) [Decidable c] (p q : Pc) :
    (if c then { s with pc := p } else { s with pc := q }) = { s with pc := if c then p else q } :=
  (apply_ite (fun pc => { s with pc := pc }) c p q).symm

/-- JEQ of a register writes its byte to the pc where E is set, and falls through where E is clear. -/
theorem exec_jeq {s : State} (hr : s.run = .running) (hm : s.params.opcodeMap.valid = true) (i : RegIx) :
    exec (.jeq (BitVec.ofNat 8 i)) s =
      .next { s with pc := if s.fl.getLsbD 0 then zext9 (s.reg i) else s.pc + 2 } := by
  exact exec_of_setsPc hm rfl ((withReg_ofNat i _).trans (congrArg Except.ok (s.ite_pc ..))) hr

/-- JNE of a register falls through where E is set, and writes the register's byte to the pc where E is clear. -/
theorem exec_jne {s : State} (hr : s.run = .running) (hm : s.params.opcodeMap.valid = true) (i : RegIx) :
    exec (.jne (BitVec.ofNat 8 i)) s =
      .next { s with pc := if s.fl.getLsbD 0 then s.pc + 2 else zext9 (s.reg i) } := by
  exact exec_of_setsPc hm rfl ((withReg_ofNat i _).trans (congrArg Except.ok (s.ite_pc ..))) hr

/-- Settles O9: JEQ checks its register byte before it looks at E. -/
theorem jeqBranchesOnEqual : Obligations.JeqBranchesOnEqual := by
  refine ⟨fun s hr hm => ⟨exec_jeq hr hm, fun a ha => exec_fatal (withReg_bad ha _)⟩, fun a b => ?_⟩
  exact decode_opcode defaultOpcodeMap_valid (i := .jeq a) (List.prefix_append [a] [b])

/-- Settles O10: JNE is JEQ with its two targets exchanged. -/
theorem jneBranchesOnNotEqual : Obligations.JneBranchesOnNotEqual := by
  refine ⟨fun s hr hm => ⟨fun i => ?_, fun a ha => exec_fatal (withReg_bad ha _)⟩, fun a b => ?_⟩
  · rw [exec_jne hr hm i]
    cases s.fl.getLsbD 0 <;> rfl
  · exact decode_opcode defaultOpcodeMap_valid (i := .jne a) (List.prefix_append [a] [b])

/-! ## CALL (R151) -/

/-- CALL of a register pushes the return address, and then writes to the pc the register as that push leaves it. -/
theorem handler_call (i : RegIx) (s : State) :
    handler (.call (BitVec.ofNat 8 i)) s = (s.pushByte fun _ => s.returnAddress).map fun t => t.setPc (t.reg i) := by
  refine (withReg_ofNat i _).trans ?_
  cases s.pushByte fun _ => s.returnAddress <;> rfl

/-- A CALL whose decrement of SP completes leaves the pushed state, at the register's byte. -/
theorem exec_call {s : State} (hr : s.run = .running) (hm : s.params.opcodeMap.valid = true) (i : RegIx)
    (h : s.params.overflowPolicy = .wrap8 ∨ s.reg spIx ≠ 0) :
    exec (.call (BitVec.ofNat 8 i)) s = .next ((s.pushed fun _ => s.returnAddress).setPc
      ((s.pushed fun _ => s.returnAddress).reg i)) := by
  refine exec_of_setsPc hm rfl ?_ hr
  rw [handler_call, State.pushByte_completes h, Except.map]

/-- Settles O6: CALL checks its register byte, and its push completes unless SP is 0 under FaultOverflow. -/
theorem callPushesReturnAddress : Obligations.CallPushesReturnAddress := by
  refine ⟨fun s hr hm hp => ⟨by omega, fun i h => ?_, fun i hf h0 => exec_fatal ?_,
    fun a ha => exec_fatal (withReg_bad ha _)⟩, fun a b => ?_⟩
  · rw [← s.reg_setReg_sp i, ← s.returnAddress_eq]
    exact exec_call hr hm i h
  · rw [handler_call, State.pushByte_overflows hf h0, Except.map]
  · exact decode_opcode defaultOpcodeMap_valid (i := .call a) (List.prefix_append [a] [b])

/-! ## RET (R152) -/

/-- RET takes the pc from the cell at SP, and then increments SP. -/
theorem handler_ret (s : State) : handler .ret s = (s.setPc (s.mem.read (s.reg spIx).toNat)).incSp :=
  s.popByte_eq fun v t => t.setPc v

/-- A RET whose increment of SP completes leaves the popped pc and the incremented SP. -/
theorem exec_ret {s : State} (hr : s.run = .running) (hm : s.params.opcodeMap.valid = true)
    (h : s.params.overflowPolicy = .wrap8 ∨ s.reg spIx ≠ 255) :
    exec .ret s = .next ((s.setPc (s.mem.read (s.reg spIx).toNat)).setReg spIx (s.reg spIx + 1)) :=
  exec_of_setsPc hm rfl ((handler_ret s).trans (State.incSp_completes h)) hr

/-- Settles O7: RET's increment completes unless SP is 255 under FaultOverflow. -/
theorem retPopsPc : Obligations.RetPopsPc := by
  refine ⟨fun s hr hm => ⟨exec_ret hr hm, fun hf h255 => exec_fatal ?_⟩, fun a b => ?_⟩
  · exact (handler_ret s).trans (State.incSp_overflows hf h255)
  · exact decode_opcode defaultOpcodeMap_valid (i := .ret) List.nil_prefix

/-! ## CALL and then RET (R156) -/

/-- The return address of a fetched CALL loses no bit of pc + 2. -/
theorem State.zext9_returnAddress {s : State} (hp : s.pc.toNat ≤ 253) : zext9 s.returnAddress = s.pc + 2 := by
  rw [zext9, State.returnAddress]
  bv_omega

/-- A byte whose predecessor is 255 is 0. -/
theorem byte_eq_zero_of_sub_one_eq_max {b : Byte} (h : b - 1 = 255) : b = 0 :=
  (BitVec.sub_add_cancel b 1).symm.trans (congrArg (· + 1) h)

/-- RET returns to the byte at SP, from whichever state holds it and an SP that a push left. -/
theorem exec_ret_of_sp {r : State} {b v : Byte} (hr : r.run = .running) (hm : r.params.opcodeMap.valid = true)
    (hsp : r.reg spIx = b - 1) (hread : r.mem.read (b - 1).toNat = v)
    (h : r.params.overflowPolicy = .wrap8 ∨ b ≠ 0) : exec .ret r = .next ((r.setPc v).setReg spIx b) := by
  have h255 : r.params.overflowPolicy = .wrap8 ∨ r.reg spIx ≠ 255 :=
    h.imp_right fun h0 h255 => h0 (byte_eq_zero_of_sub_one_eq_max (hsp.symm.trans h255))
  rw [exec_ret hr hm h255, hsp, hread, BitVec.sub_add_cancel]

/-- Settles O46: CALL leaves the return address at the decremented SP; RET reads that cell and undoes the decrement. -/
theorem callThenRetReturns : Obligations.CallThenRetReturns := by
  refine ⟨fun s i hr hm hmem hp h => ⟨_, exec_call hr hm i h, hr, fun r hrun hparams hsp hread => ?_⟩,
    fun s i hr hm => ⟨⟨_, exec_jeq hr hm i, rfl⟩, ⟨_, exec_jne hr hm i, rfl⟩⟩⟩
  have hpushed : (s.pushed fun _ => s.returnAddress).reg 7 = s.reg 7 - 1 := s.reg_setReg_self 7 _
  replace hread := hread.trans (State.read_pushed_sp hmem fun _ => s.returnAddress)
  rw [State.reg_setPc, hpushed] at hsp hread
  have hret := exec_ret_of_sp hrun (hparams ▸ hm) hsp hread (hparams ▸ h)
  exact ⟨_, hret, hrun, State.zext9_returnAddress hp, State.reg_setReg_self _ _ _⟩

end Sys2Proof.Machine
end

section
/-! PROOFS. The ALU: each of its fourteen instructions, and the arithmetic they agree with. -/

namespace Sys2Proof.Machine

/-! ## What Fit8 makes of a natural result, a successor, a predecessor and a complement (R171) -/

theorem State.fit8_natCast {s : State} {n : Nat} (h : s.params.overflowPolicy = .wrap8 ∨ n ≤ 255) :
    s.fit8 (n : Int) = .ok (BitVec.ofNat 8 n) := by
  rw [← BitVec.ofInt_natCast]
  exact State.fit8_completes (h.imp_right fun hn => by omega)

theorem State.fit8_natCast_overflows {s : State} {n : Nat} (hp : s.params.overflowPolicy = .faultOverflow)
    (h : 255 < n) : s.fit8 (n : Int) = .error (.overflow n) :=
  State.fit8_overflows hp (by omega)

theorem State.fit8_succ {s : State} {A : Byte} (h : s.params.overflowPolicy = .wrap8 ∨ A ≠ 255) :
    s.fit8 (A.toNat + 1) = .ok (A + 1) := by
  rw [← ofInt_succ]
  exact State.fit8_completes (h.imp_right fun hA => by bv_omega)

theorem State.fit8_pred {s : State} {A : Byte} (h : s.params.overflowPolicy = .wrap8 ∨ A ≠ 0) :
    s.fit8 (A.toNat - 1) = .ok (A - 1) := by
  rw [← ofInt_pred]
  exact State.fit8_completes (h.imp_right fun hA => by bv_omega)

theorem ofInt_complement (A : Byte) : BitVec.ofInt 8 (-A.toNat - 1) = BitVec.ofNat 8 (255 - A.toNat) := by
  apply BitVec.eq_of_toNat_eq; simp; omega

theorem toNat_ofInt_eq_emod (r : Int) : ((BitVec.ofInt 8 r).toNat : Int) = r % 256 := by
  rw [BitVec.toNat_ofInt]; omega

/-! ## The form of one register (R170) -/

/-- `op` is the ALU operation that gives one register the result `f`, which may depend on the state's policy. -/
structure Alu1 (op : Byte → Instr) (f : State → Byte → Except Cause Byte) : Prop where
  handler_eq : ∀ a s, handler (op a) s = alu1 s a (f s)
  setsPc : ∀ a, (op a).setsPc = false := by intros; rfl

theorem alu1_inc : Alu1 .inc fun s A => s.fit8 (A.toNat + 1) := { handler_eq := fun _ _ => rfl }
theorem alu1_dec : Alu1 .dec fun s A => s.fit8 (A.toNat - 1) := { handler_eq := fun _ _ => rfl }
theorem alu1_not : Alu1 .not fun s A => s.fit8 (-A.toNat - 1) := { handler_eq := fun _ _ => rfl }

namespace Alu1

variable {op : Byte → Instr} {f : State → Byte → Except Cause Byte} (h : Alu1 op f) {s : State} {i : RegIx}
include h

/-- A result that is a byte is written, and the pc advances by the opcode's bits 7:6 plus 1. -/
theorem exec_ok (hr : s.run = .running) (hm : s.params.opcodeMap.valid = true) {v : Byte} (hv : f s (s.reg i) = .ok v) :
    exec (op (BitVec.ofNat 8 i)) s = .next { s with
      x := s.x.set i v
      pc := s.pc + BitVec.ofNat 9 ((opcode s.params.opcodeMap (op (BitVec.ofNat 8 i))).toNat / 64 + 1) } := by
  rw [exec_completes ((h.handler_eq _ s).trans (alu1_value s i hv)) hr, advance_opcode_open hm (h.setsPc _),
    operandCount_eq_div]
  rfl

/-- A fatal condition of the result is taken. -/
theorem exec_error {c : Cause} (hc : f s (s.reg i) = .error c) : exec (op (BitVec.ofNat 8 i)) s = .next (s.raise c) :=
  exec_fatal ((h.handler_eq _ s).trans (alu1_fatal s i hc))

theorem exec_bad {a : Byte} (ha : 7 < a.toNat) : exec (op a) s = .next (s.raise (.outOfBoundsRegister a)) :=
  exec_fatal ((h.handler_eq a s).trans (alu1_bad s ha _))

end Alu1

/-- The decoder does not look at the third byte of an instruction of one operand (R103). -/
theorem decode_of_operands_singleton {i : Instr} {a : Byte} (hi : i.operands = [a]) (b : Byte) :
    decode defaultOpcodeMap (opcode defaultOpcodeMap i) a b = .instr i :=
  decode_opcode defaultOpcodeMap_valid (hi ▸ List.prefix_append [a] [b])

/-- Settles O11: INC's result leaves the byte for 255 alone. -/
theorem incAddsOne : Obligations.IncAddsOne := by
  refine ⟨fun s hr hm => ⟨fun i h => ?_, fun i hp h => alu1_inc.exec_error ?_, fun a => alu1_inc.exec_bad⟩, rfl,
    fun a => decode_of_operands_singleton (i := .inc a) rfl⟩
  · exact alu1_inc.exec_ok hr hm (State.fit8_succ h)
  · rw [h]; exact State.fit8_overflows hp (by decide)

/-- Settles O12: DEC's result leaves the byte for 0 alone. -/
theorem decSubtractsOne : Obligations.DecSubtractsOne := by
  refine ⟨fun s hr hm => ⟨fun i h => ?_, fun i hp h => alu1_dec.exec_error ?_, fun a => alu1_dec.exec_bad⟩, rfl,
    fun a => decode_of_operands_singleton (i := .dec a) rfl⟩
  · exact alu1_dec.exec_ok hr hm (State.fit8_pred h)
  · rw [h]; exact State.fit8_overflows hp (by decide)

/-- Settles O13: NOT's result -A-1 is negative for every A. -/
theorem notComplements : Obligations.NotComplements := by
  refine ⟨fun s hr hm => ⟨fun i hp => ?_, fun i hp => alu1_not.exec_error ?_, fun a => alu1_not.exec_bad⟩, rfl,
    fun a => decode_of_operands_singleton (i := .not a) rfl⟩
  · rw [← ofInt_complement]
    exact alu1_not.exec_ok hr hm (State.fit8_completes (.inl hp))
  · exact State.fit8_overflows hp (by omega)

/-! ## The form of two registers (R170) -/

/-- `op` is the ALU operation that gives its first register the result `f`, which may depend on the state's policy. -/
structure Alu2 (op : Byte → Byte → Instr) (f : State → Byte → Byte → Except Cause Byte) : Prop where
  handler_eq : ∀ a b s, handler (op a b) s = alu2 s a b (f s)
  setsPc : ∀ a b, (op a b).setsPc = false := by intros; rfl
  lengthOpen : ∀ a b, (op a b).lengthOpen = false := by intros; rfl
  operands : ∀ a b, (op a b).operands = [a, b] := by intros; rfl

theorem alu2_add : Alu2 .add fun s A B => s.fit8 (A.toNat + B.toNat : Nat) :=
  { handler_eq := fun _ _ _ => rfl }
theorem alu2_sub : Alu2 .sub fun s A B => s.fit8 (A.toNat - B.toNat) :=
  { handler_eq := fun _ _ _ => rfl }
theorem alu2_mul : Alu2 .mul fun s A B => s.fit8 (A.toNat * B.toNat : Nat) :=
  { handler_eq := fun _ _ _ => rfl }
theorem alu2_div : Alu2 .div fun _ A B =>
    if B = 0 then .error .divisionByZero else .ok (BitVec.ofNat 8 (A.toNat / B.toNat)) :=
  { handler_eq := fun _ _ _ => rfl }
theorem alu2_mod : Alu2 .mod fun _ A B =>
    if B = 0 then .error .divisionByZero else .ok (BitVec.ofNat 8 (A.toNat % B.toNat)) :=
  { handler_eq := fun _ _ _ => rfl }
theorem alu2_and : Alu2 .and fun _ A B => .ok (A &&& B) :=
  { handler_eq := fun _ _ _ => rfl }
theorem alu2_or : Alu2 .or fun _ A B => .ok (A ||| B) :=
  { handler_eq := fun _ _ _ => rfl }
theorem alu2_xor : Alu2 .xor fun _ A B => .ok (A ^^^ B) :=
  { handler_eq := fun _ _ _ => rfl }
theorem alu2_shl : Alu2 .shl fun s A B => s.fit8 (A.toNat * 2 ^ B.toNat : Nat) :=
  { handler_eq := fun _ _ _ => rfl }
theorem alu2_shr : Alu2 .shr fun _ A B => .ok (BitVec.ofNat 8 (A.toNat / 2 ^ B.toNat)) :=
  { handler_eq := fun _ _ _ => rfl }

/-- An instruction of two register operands takes OutOfBounds(register) for the first, and then for the second (R108). -/
theorem exec_bad_registers {op : Byte → Byte → Instr} (h : ∀ a b, (op a b).regOperands = [a, b]) (s : State) :
    (∀ a b : Byte, 7 < a.toNat → exec (op a b) s = .next (s.raise (.outOfBoundsRegister a))) ∧
    (∀ (i : RegIx) (b : Byte), 7 < b.toNat →
      exec (op (BitVec.ofNat 8 i) b) s = .next (s.raise (.outOfBoundsRegister b))) := by
  refine ⟨fun a b ha => exec_fatal (handler_firstBadRegister ?_ s),
    fun i b hb => exec_fatal (handler_firstBadRegister ?_ s)⟩ <;> rw [h]
  · exact firstBadRegister_cons_of_gt ha [b]
  · rw [firstBadRegister_cons_of_le (regByte_toNat_le i)]
    exact firstBadRegister_cons_of_gt hb []

/-- The bytes of an instruction of two operands decode to it (R75, R76). -/
theorem decode_of_operands_pair {i : Instr} {a b : Byte} (hi : i.operands = [a, b]) :
    decode defaultOpcodeMap (opcode defaultOpcodeMap i) a b = .instr i :=
  decode_opcode defaultOpcodeMap_valid (hi ▸ List.prefix_rfl)

namespace Alu2

section
variable {op : Byte → Byte → Instr} {f : State → Byte → Byte → Except Cause Byte} (h : Alu2 op f) {s : State}
  {i j : RegIx}
include h

/-- A result that is a byte is written to the first register, and the pc advances by 3. -/
theorem exec_ok (hr : s.run = .running) (hm : s.params.opcodeMap.valid = true) {v : Byte}
    (hv : f s (s.reg i) (s.reg j) = .ok v) :
    exec (op (BitVec.ofNat 8 i) (BitVec.ofNat 8 j)) s = .next { s with x := s.x.set i v, pc := s.pc + 3 } := by
  rw [exec_advances hm (h.setsPc _ _) (h.lengthOpen _ _) ((h.handler_eq _ _ s).trans (alu2_value s i j hv)) hr,
    h.operands]
  rfl

/-- A fatal condition of the result is taken. -/
theorem exec_error {c : Cause} (hc : f s (s.reg i) (s.reg j) = .error c) :
    exec (op (BitVec.ofNat 8 i) (BitVec.ofNat 8 j)) s = .next (s.raise c) :=
  exec_fatal ((h.handler_eq _ _ s).trans (alu2_fatal s i j hc))

/-- An operation whose result is Fit8 of `r` leaves `r` itself, `r` modulo 256, or Overflow(`r`), as the policy has it. -/
theorem exec_fit8 (hr : s.run = .running) (hm : s.params.opcodeMap.valid = true) {r : Int}
    (hf : f s (s.reg i) (s.reg j) = s.fit8 r) :
    ∃ t, exec (op (BitVec.ofNat 8 i) (BitVec.ofNat 8 j)) s = .next t ∧ (i ≠ j → t.reg j = s.reg j) ∧
      (s.params.overflowPolicy = .wrap8 → t.run = .running ∧ ((t.reg i).toNat : Int) = r % 256) ∧
      (s.params.overflowPolicy = .faultOverflow →
        (t.run = .running ∧ ((t.reg i).toNat : Int) = r) ∨ t.run = .faulted (.overflow r) s.pc) := by
  cases hv : s.fit8 r with
  | ok v =>
    obtain ⟨rfl, hrange⟩ := State.fit8_ok hv
    have hi : (((s.setReg i (BitVec.ofInt 8 r)).reg i).toNat : Int) = r % 256 := by
      rw [State.reg_setReg_self, toNat_ofInt_eq_emod]
    refine ⟨_, h.exec_ok hr hm (hf.trans hv), s.reg_setReg_ne _, fun _ => ⟨hr, hi⟩, fun hp => .inl ⟨hr, hi.trans ?_⟩⟩
    obtain ⟨h0, h255⟩ := hrange hp
    exact Int.emod_eq_of_lt h0 (Int.lt_add_one_of_le h255)
  | error c =>
    obtain ⟨hp, rfl, -⟩ := State.fit8_error hv
    exact ⟨_, h.exec_error (hf.trans hv), fun _ => rfl, fun hw => absurd (hw.symm.trans hp) nofun, fun _ => .inr rfl⟩

end

section
variable {op : Byte → Byte → Instr} {n : Byte → Byte → Nat} (h : Alu2 op fun s A B => s.fit8 (n A B : Nat)) {s : State}
include h

/-- A natural result is written modulo 256 under Wrap8, and where it is a byte. -/
theorem exec_fits_nat (hr : s.run = .running) (hm : s.params.opcodeMap.valid = true) (i j : RegIx)
    (hn : s.params.overflowPolicy = .wrap8 ∨ n (s.reg i) (s.reg j) ≤ 255) :
    exec (op (BitVec.ofNat 8 i) (BitVec.ofNat 8 j)) s =
      .next { s with x := s.x.set i (BitVec.ofNat 8 (n (s.reg i) (s.reg j))), pc := s.pc + 3 } :=
  h.exec_ok hr hm (State.fit8_natCast hn)

/-- A natural result above 255 takes Overflow under FaultOverflow. -/
theorem exec_overflows_nat (i j : RegIx) (hp : s.params.overflowPolicy = .faultOverflow)
    (hn : 255 < n (s.reg i) (s.reg j)) :
    exec (op (BitVec.ofNat 8 i) (BitVec.ofNat 8 j)) s = .next (s.raise (.overflow (n (s.reg i) (s.reg j)))) :=
  h.exec_error (State.fit8_natCast_overflows hp hn)

end

end Alu2

/-! ## ADD, SUB, MUL and SHL: a result fitted to a byte -/

/-- Settles O14: the sum is a natural result of Fit8. -/
theorem addFitsSum : Obligations.AddFitsSum :=
  ⟨fun s hr hm => ⟨alu2_add.exec_fits_nat hr hm, alu2_add.exec_overflows_nat, exec_bad_registers (fun _ _ => rfl) s⟩,
    fun a b => decode_of_operands_pair (i := .add a b) rfl⟩

/-- Settles O15: the difference is the one two-register result that can be negative, and it is never above 255. -/
theorem subFitsDifference : Obligations.SubFitsDifference := by
  refine ⟨fun s hr hm => ⟨fun i j h => ?_, fun i j hp h => ?_, exec_bad_registers (fun _ _ => rfl) s⟩,
    fun a b => decode_of_operands_pair (i := .sub a b) rfl⟩
  · exact alu2_sub.exec_ok hr hm (State.fit8_completes (h.imp_right fun hle => by omega))
  · exact alu2_sub.exec_error (State.fit8_overflows hp (by omega))

/-- Settles O16: the product is a natural result of Fit8. -/
theorem mulFitsProduct : Obligations.MulFitsProduct :=
  ⟨fun s hr hm => ⟨alu2_mul.exec_fits_nat hr hm, alu2_mul.exec_overflows_nat, exec_bad_registers (fun _ _ => rfl) s⟩,
    fun a b => decode_of_operands_pair (i := .mul a b) rfl⟩

/-- Settles O21: the shifted register is a natural result of Fit8. -/
theorem shlShiftsLeft : Obligations.ShlShiftsLeft :=
  ⟨fun s hr hm => ⟨alu2_shl.exec_fits_nat hr hm, alu2_shl.exec_overflows_nat, exec_bad_registers (fun _ _ => rfl) s⟩,
    fun a b => decode_of_operands_pair (i := .shl a b) rfl⟩

/-! ## DIV and MOD: a divisor of 0 is fatal, and no other result leaves the byte -/

/-- Settles O17: DIV looks at its divisor before it divides. -/
theorem divWritesQuotient : Obligations.DivWritesQuotient :=
  ⟨fun s hr hm => ⟨fun _ _ hB => alu2_div.exec_ok hr hm (if_neg hB), fun _ _ hB => alu2_div.exec_error (if_pos hB),
    exec_bad_registers (fun _ _ => rfl) s⟩, fun a b => decode_of_operands_pair (i := .div a b) rfl⟩

/-- Settles O18: MOD looks at its divisor before it divides. -/
theorem modWritesRemainder : Obligations.ModWritesRemainder :=
  ⟨fun s hr hm => ⟨fun _ _ hB => alu2_mod.exec_ok hr hm (if_neg hB), fun _ _ hB => alu2_mod.exec_error (if_pos hB),
    exec_bad_registers (fun _ _ => rfl) s⟩, fun a b => decode_of_operands_pair (i := .mod a b) rfl⟩

/-- A quotient by a nonzero divisor is what Fit8 makes of it under either policy. -/
theorem div_eq_fit8 (s : State) (A : Byte) {B : Byte} (hB : B ≠ 0) :
    (if B = 0 then .error .divisionByZero else .ok (BitVec.ofNat 8 (A.toNat / B.toNat)) : Except Cause Byte) =
      s.fit8 (A.toNat / B.toNat : Nat) := by
  rw [if_neg hB, State.fit8_natCast (.inr ((Nat.div_le_self ..).trans (by omega)))]

/-- So is a remainder. -/
theorem mod_eq_fit8 (s : State) (A : Byte) {B : Byte} (hB : B ≠ 0) :
    (if B = 0 then .error .divisionByZero else .ok (BitVec.ofNat 8 (A.toNat % B.toNat)) : Except Cause Byte) =
      s.fit8 (A.toNat % B.toNat : Nat) := by
  rw [if_neg hB, State.fit8_natCast (.inr ((Nat.mod_le ..).trans (by omega)))]

/-- Settles O50: each of the five results is Fit8 of the native one. -/
theorem arithmeticIsExact : Obligations.ArithmeticIsExact := by
  intro s i j op r hr hm h
  simp only [List.mem_cons, Prod.mk.injEq, List.not_mem_nil, or_false] at h
  rcases h with (⟨rfl, rfl⟩ | ⟨rfl, rfl⟩ | ⟨rfl, rfl⟩) | ⟨hB, ⟨rfl, rfl⟩ | ⟨rfl, rfl⟩⟩
  · exact alu2_add.exec_fit8 hr hm rfl
  · exact alu2_sub.exec_fit8 hr hm rfl
  · exact alu2_mul.exec_fit8 hr hm rfl
  · exact alu2_div.exec_fit8 hr hm (div_eq_fit8 s (s.reg i) hB)
  · exact alu2_mod.exec_fit8 hr hm (mod_eq_fit8 s (s.reg i) hB)

/-! ## AND, OR, XOR and SHR: the result is always a byte -/

/-- Settles O20: a bitwise operation has no fatal condition of its own. -/
theorem bitwiseCombineBits : Obligations.BitwiseCombineBits := by
  refine ⟨fun s hr hm => ?_, fun a b => ⟨decode_of_operands_pair (i := .and a b) rfl,
    decode_of_operands_pair (i := .or a b) rfl, decode_of_operands_pair (i := .xor a b) rfl⟩⟩
  obtain ⟨and_a, and_b⟩ := exec_bad_registers (op := .and) (fun _ _ => rfl) s
  obtain ⟨or_a, or_b⟩ := exec_bad_registers (op := .or) (fun _ _ => rfl) s
  obtain ⟨xor_a, xor_b⟩ := exec_bad_registers (op := .xor) (fun _ _ => rfl) s
  exact ⟨fun i j => ⟨_, fun _ => BitVec.getLsbD_and, alu2_and.exec_ok hr hm rfl⟩, and_a, and_b,
    fun i j => ⟨_, fun _ => BitVec.getLsbD_or, alu2_or.exec_ok hr hm rfl⟩, or_a, or_b,
    fun i j => ⟨_, fun _ => BitVec.getLsbD_xor, alu2_xor.exec_ok hr hm rfl⟩, xor_a, xor_b⟩

/-- A count of 8 or more shifts every bit of a byte out. -/
theorem div_two_pow_eq_zero (A : Byte) {n : Nat} (h : 8 ≤ n) : A.toNat / 2 ^ n = 0 :=
  Nat.div_eq_of_lt (A.isLt.trans_le (Nat.pow_le_pow_right (by decide) h))

/-- Settles O22: the quotient by a power of 2, which is 0 from the count 8 on. -/
theorem shrShiftsRight : Obligations.ShrShiftsRight := by
  refine ⟨fun s hr hm => ⟨fun i j => alu2_shr.exec_ok hr hm rfl, fun i j h => ?_,
    exec_bad_registers (fun _ _ => rfl) s⟩, fun a b => decode_of_operands_pair (i := .shr a b) rfl⟩
  exact alu2_shr.exec_ok hr hm (by rw [div_two_pow_eq_zero (s.reg i) h]; rfl)

/-! ## CMP (R182) -/

/-- The flag byte of CMP as a choice between the three orders of two bytes. -/
theorem cmpFlags_eq_ite (A B : Byte) :
    cmpFlags A B = if A.toNat < B.toNat then 0b100 else if B.toNat < A.toNat then 0b010 else 0b001 := by
  rcases byte_trichotomy A B with h | rfl | h
  · rw [cmpFlags_of_lt h, if_pos h]
  · rw [cmpFlags_self, if_neg (Nat.lt_irrefl _), if_neg (Nat.lt_irrefl _)]
  · rw [cmpFlags_of_gt h, if_neg (Nat.lt_asymm h), if_pos h]

/-- CMP of two registers writes the flag byte of their order. -/
theorem handler_cmp (i j : RegIx) (s : State) :
    handler (.cmp (BitVec.ofNat 8 i) (BitVec.ofNat 8 j)) s = .ok (s.setFl (cmpFlags (s.reg i) (s.reg j))) :=
  withRegs_ofNat i j _

/-- Settles O19: CMP's handler writes one flag byte, for each of the three orders its own. -/
theorem cmpWritesFlags : Obligations.CmpWritesFlags := by
  refine ⟨fun s hr hm => ⟨fun i j => ?_, exec_bad_registers (fun _ _ => rfl) s⟩,
    fun a b => decode_of_operands_pair (i := .cmp a b) rfl⟩
  rw [← cmpFlags_eq_ite]
  exact exec_advances hm rfl rfl (handler_cmp i j s) hr

end Sys2Proof.Machine
end

section
/-! PROOFS. The two overflow policies: a run under FaultOverflow that takes no Overflow is a run under Wrap8. -/

namespace Sys2Proof.Machine

/-! ## Handlers under the two policies -/

/-- The same state under Wrap8. -/
def State.wrapping (s : State) : State := s.withPolicy .wrap8

theorem State.wrapping_equalFlag (s : State) : s.wrapping.equalFlag = s.equalFlag := rfl

theorem State.advance_wrapping (op : Byte) (s : State) : s.wrapping.advance op = (s.advance op).wrapping := by
  unfold State.advance; split <;> rfl

theorem State.fit8_wrapping (s : State) (r : Int) : s.wrapping.fit8 r = .ok (BitVec.ofInt 8 r) := rfl

/-- `r'` is `r` carried to Wrap8, unless `r` is an Overflow. -/
def WrapsTo (r r' : Except Cause State) : Prop := (∃ z, r = .error (.overflow z)) ∨ r' = mapOk State.wrapping r

theorem WrapsTo.error (c : Cause) : WrapsTo (.error c) (.error c) := .inr rfl

/-- Fit8 under a state's own policy takes Overflow, or is Fit8 under Wrap8. -/
theorem State.fit8_wraps (s : State) (r : Int) : s.fit8 r = .error (.overflow r) ∨ s.fit8 r = s.wrapping.fit8 r := by
  cases h : s.fit8 r with
  | ok v => exact .inr (by rw [(State.fit8_ok h).1, s.fit8_wrapping])
  | error c => exact .inl (by rw [(State.fit8_error h).2.1])

/-- An increment of SP writes what it writes under Wrap8, or takes Overflow. -/
theorem State.incSp_wraps (s : State) : WrapsTo s.incSp s.wrapping.incSp := by
  cases h : s.incSp with
  | ok t => exact .inr (by rw [(State.incSp_ok h).1, State.incSp_completes (.inl rfl)]; rfl)
  | error c => exact .inl ⟨256, by rw [(State.incSp_error h).2.2]⟩

theorem State.pushed_wrapping (s : State) {f f' : State → Byte} (hf : ∀ u : State, f' u.wrapping = f u) :
    s.wrapping.pushed f' = (s.pushed f).wrapping := by
  simp only [State.pushed, ← hf]
  rfl

/-- A push writes what it writes under Wrap8, or takes Overflow. -/
theorem State.pushByte_wraps (s : State) {f f' : State → Byte} (hf : ∀ u : State, f' u.wrapping = f u) :
    WrapsTo (s.pushByte f) (s.wrapping.pushByte f') := by
  cases h : s.pushByte f with
  | ok t => exact .inr (by rw [(State.pushByte_ok h).1, State.pushByte_completes (.inl rfl), s.pushed_wrapping hf]; rfl)
  | error c => exact .inl ⟨-1, by rw [(State.pushByte_error h).2.2]⟩

/-- An ALU operation of one register whose result is Fit8's. -/
theorem alu1_fit8_wraps (s : State) (a : Byte) (n : Byte → Int) :
    WrapsTo (alu1 s a fun A => s.fit8 (n A)) (alu1 s.wrapping a fun A => s.wrapping.fit8 (n A)) := by
  refine withReg_rel WrapsTo WrapsTo.error a fun i => ?_
  rcases s.fit8_wraps (n (s.reg i)) with h | h
  · exact .inl ⟨n (s.reg i), by dsimp only; rw [h]⟩
  · refine .inr ?_
    dsimp only
    rw [h]
    rfl

/-- An ALU operation of two registers whose result is Fit8's. -/
theorem alu2_fit8_wraps (s : State) (a b : Byte) (n : Byte → Byte → Int) :
    WrapsTo (alu2 s a b fun A B => s.fit8 (n A B)) (alu2 s.wrapping a b fun A B => s.wrapping.fit8 (n A B)) := by
  refine withReg_rel WrapsTo WrapsTo.error a fun i => withReg_rel WrapsTo WrapsTo.error b fun j => ?_
  rcases s.fit8_wraps (n (s.reg i) (s.reg j)) with h | h
  · exact .inl ⟨n (s.reg i) (s.reg j), by dsimp only; rw [h]⟩
  · refine .inr ?_
    dsimp only
    rw [h]
    rfl

/-- A handler answers what it answers under Wrap8, or takes Overflow. -/
theorem handler_wraps (i : Instr) (s : State) : WrapsTo (handler i s) (handler i s.wrapping) := by
  cases i <;> simp only [handler]
  case hlt => exact .inr rfl
  case ret =>
    rw [State.popByte_eq, State.popByte_eq]
    exact State.incSp_wraps (s.setPc _)
  case push a => exact withReg_rel WrapsTo WrapsTo.error a fun r => s.pushByte_wraps fun _ => rfl
  case pop a =>
    refine withReg_rel WrapsTo WrapsTo.error a fun r => ?_
    rw [State.popByte_eq, State.popByte_eq]
    exact State.incSp_wraps (s.setReg r _)
  case call a =>
    refine withReg_rel WrapsTo WrapsTo.error a fun r => ?_
    rcases s.pushByte_wraps (f := fun _ => s.returnAddress) (f' := fun _ => s.wrapping.returnAddress) fun _ => rfl
      with ⟨z, h⟩ | h
    · exact .inl ⟨z, by rw [h]⟩
    · refine .inr ?_
      rw [h]
      cases s.pushByte fun _ => s.returnAddress <;> rfl
  case prn a | jmp a | ldi a b => exact .inr (withReg_map _ a fun _ => rfl)
  case jeq a | jne a =>
    refine .inr (withReg_map _ a fun _ => ?_)
    rw [State.wrapping_equalFlag]
    split <;> rfl
  case cmp a b => exact .inr (withRegs_map _ a b fun _ _ => rfl)
  case inc a | dec a | not a => exact alu1_fit8_wraps s a _
  case add a b | sub a b | mul a b | shl a b => exact alu2_fit8_wraps s a b _
  all_goals exact .inr (alu2_map State.wrapping s _ _ _ _ (fun _ => rfl) fun _ _ => rfl)

/-! ## Steps and runs under the two policies -/

/-- The run has ended in an Overflow. -/
def State.Overflowed (s : State) : Prop := ∃ z p, s.run = .faulted (.overflow z) p

/-- `u` is `t` carried to Wrap8, unless `t` has ended in an Overflow. -/
def StateWrapsTo (t u : State) : Prop := t.Overflowed ∨ u = t.wrapping

/-- An instruction does what it does under Wrap8, or takes Overflow. -/
theorem exec_wraps {i : Instr} {s t : State} (h : exec i s = .next t) :
    ∃ u, exec i s.wrapping = .next u ∧ StateWrapsTo t u := by
  rcases handler_wraps i s with ⟨z, hz⟩ | hw
  · obtain rfl := Host.Outcome.next.inj ((exec_fatal hz).symm.trans h)
    obtain ⟨u, hu⟩ := exec_next i s.wrapping
    exact ⟨u, hu, .inl ⟨z, s.pc, rfl⟩⟩
  · rw [exec_eq_conclude] at h ⊢
    exact conclude_rel StateWrapsTo (fun c hc => ⟨by rw [hw, hc]; rfl, .inr rfl⟩)
      (fun u hu => ⟨u.wrapping, by rw [hw, hu]; rfl, rfl, .inr rfl, .inr (u.advance_wrapping _)⟩) h

/-- A step that does not end in an Overflow is the step under Wrap8. -/
theorem step_wrapping {s t : State} (h : step s = .next t) (ht : ¬ t.Overflowed) :
    step s.wrapping = .next t.wrapping := by
  obtain ⟨u, hu, ho | rfl⟩ := step_rel StateWrapsTo (s := s) (s' := s.wrapping) rfl rfl rfl rfl (fun _ => .inr rfl)
    (fun op => .inr ((s.report op).advance_wrapping op)) (fun _ he => exec_wraps he) h
  · exact absurd ho ht
  · exact hu

/-- A run of steps that has gone on has not passed through an Overflow: only a Running state steps. -/
theorem not_overflowed_of_run {n : Nat} {s t : State} (h : Host.Core.run core n s = .next t) (ht : ¬ t.Overflowed) :
    ¬ s.Overflowed := by
  cases n with
  | zero => exact Host.Outcome.next.inj (h.symm.trans (run_zero s)) ▸ ht
  | succ n =>
    obtain ⟨u, hu, -⟩ := run_succ_next h
    rintro ⟨z, p, hs⟩
    cases (step_cases hu).1.symm.trans hs

/-- A run that does not end in an Overflow is the run under Wrap8. -/
theorem run_wrapping {n : Nat} {s t : State} (h : Host.Core.run core n s = .next t) (ht : ¬ t.Overflowed) :
    Host.Core.run core n s.wrapping = .next t.wrapping := by
  induction n generalizing s with
  | zero => rw [Host.Outcome.next.inj ((run_zero s).symm.trans h), run_zero]
  | succ n ih =>
    obtain ⟨u, hu, hrun⟩ := run_succ_next h
    rw [run_succ (step_wrapping hu (not_overflowed_of_run hrun ht))]
    exact ih hrun

/-- Settles O48: under Wrap8 each step of the run does the same, since none takes Overflow. -/
theorem faultOverflowRunsAreWrapRuns : Obligations.FaultOverflowRunsAreWrapRuns :=
  fun _ s _ h ht => run_wrapping (s := s.withPolicy .faultOverflow) h fun ⟨z, p, hz⟩ => ht z p hz

end Sys2Proof.Machine
end

section
/-! PROOFS. What a launch answers, and where it puts the image. -/

namespace Sys2Proof.Machine

/-- Under a valid map an image that fits is loaded into the created state. -/
theorem launch_of_fits {p : Params} (hm : p.opcodeMap.valid = true) {image : List Byte} (hl : image.length ≤ 256)
    (entry : Byte) : State.launch p image entry = .ok ((State.create p entry).load image) := by
  rw [State.launch, if_neg (Nat.not_lt.mpr hl), if_pos hm]

/-- An image longer than memory is refused, whatever the map (decision D24). -/
theorem launch_of_tooLong (p : Params) {image : List Byte} (hl : 256 < image.length) (entry : Byte) :
    State.launch p image entry = .error .imageTooLong :=
  if_pos hl

/-- An image placed from address 0 in empty memory: a cell inside it reads the image's byte, a cell past it reads 0. -/
theorem Memory.read_place_nil {image : List Byte} (hl : image.length ≤ 256) (k : Nat) :
    (Memory.place [] 0 image).read k = image.getD k 0 := by
  rw [Memory.read_place Memory.wf_nil image (by omega)]
  split
  case isTrue => rfl
  case isFalse hk => exact (List.getD_eq_default image 0 (by omega)).symm

/-- Settles O51: an image that fits is placed from address 0 in the created state's empty memory. -/
theorem launchPlacesImage : Obligations.LaunchPlacesImage :=
  fun p _ entry hm =>
    ⟨fun hl => ⟨_, launch_of_fits hm hl entry, Memory.read_place_nil hl⟩, fun hl => launch_of_tooLong p hl entry⟩

end Sys2Proof.Machine
end
